-- ==== Sys2Proof/Word.lean ====
section
/-! DEFINITION. The word types of the core (00_scope.md R7, R8): every value is unsigned. -/

namespace Sys2Proof

/-- A byte of the Message, of a block or of the digest (20_memory.md R60). -/
abbrev Byte := BitVec 8

/-- An operation word (30_encoding.md R80). -/
abbrev OpWord := BitVec 16

/-- The 32-bit word of the schedule, the rounds and the State (00_scope.md R7). -/
abbrev Word := BitVec 32

/-- A length or block counter (00_scope.md R7, `LENW` and the width of NBLK and BI). -/
abbrev DWord := BitVec 64

/-- The Message offset space: 64-bit unsigned byte offsets (20_memory.md R60). -/
abbrev addressSpace : Nat := 2 ^ 64

end Sys2Proof
end

