-- ==== Sys2Proof/Syntax.lean ====
section
/-! DEFINITION. The fifteen operations of the opcode map (30_encoding.md R83, opcode_table.json), one constructor a row. An
index operand has the type of its range in R83; the lower bound of WEXP's index is checked in WellFormed.lean. -/

namespace Sys2Proof

/-- One operation. The 64-bit `din` of SETLEN is no part of the operation word (R83): it stands on the host port. -/
inductive Instr where
  | setlen
  | start
  | getst
  | getw (i : Fin 8)
  | getb (j : Fin 32)
  | getx (j : Fin 64)
  | finit
  | frame
  | wload (i : Fin 16)
  | wexp (i : Fin 64)
  | hinit
  | seed
  | round (i : Fin 64)
  | fold
  | emit
  deriving DecidableEq, Repr

/-- Who may issue an operation (30_encoding.md R81, R83). -/
inductive Issuer where
  | host
  | sequencer
  deriving DecidableEq, Repr

end Sys2Proof
end

