-- ==== Sys2Proof/WellFormed.lean ====
section
/-! DEFINITION. The one check of an operation that its type does not make: the lower bound of WEXP's index. -/

namespace Sys2Proof

/-- The operand is in the range of the opcode map (30_encoding.md R83): `16 <= idx` for WEXP, nothing to check elsewhere. -/
def Instr.wf : Instr → Bool
  | .setlen => true
  | .start => true
  | .getst => true
  | .getw _ => true
  | .getb _ => true
  | .getx _ => true
  | .finit => true
  | .frame => true
  | .wload _ => true
  | .wexp i => decide (16 ≤ i.val)
  | .hinit => true
  | .seed => true
  | .round _ => true
  | .fold => true
  | .emit => true

end Sys2Proof
end

