-- ==== Sys2Proof/Decode.lean ====
section
/-! DEFINITION. From operation words to operations (30_encoding.md R80 to R85), and back. Decoding is total on the 65536
words and rejects by name. -/

namespace Sys2Proof

/-- Why a word is reserved (30_encoding.md R85). -/
inductive DecodeReject where
  /-- `z != 0`. -/
  | zNotZero
  /-- An unused function of units 0 to 3 (the word `0x0000` among them). -/
  | functionReserved
  /-- A unit from `0x4` up (R81). -/
  | unitReserved
  /-- The index is outside the range of the operation. -/
  | indexReserved
  deriving DecidableEq, Repr

/-- Field `opc`, bits 15:8 (R80). -/
def opcField (w : OpWord) : BitVec 8 := w.extractLsb' 8 8

/-- Field `z`, bits 7:6 (R80). -/
def zField (w : OpWord) : BitVec 2 := w.extractLsb' 6 2

/-- Field `idx`, bits 5:0 (R80), unsigned and used as it stands (R82). -/
def idxField (w : OpWord) : BitVec 6 := w.extractLsb' 0 6

/-- A word from its opcode and index, `z = 00` (R80). -/
def mkWord (opc : BitVec 8) (idx : BitVec 6) : OpWord := opc ++ 0#2 ++ idx

/-- An operation that takes no index: the field must be 0 (R80). -/
def decodePlain (i : Instr) (idx : BitVec 6) : Except DecodeReject Instr :=
  if idx = 0#6 then .ok i else .error .indexReserved

/-- An operation whose index runs from 0 up to, not including, `n`. -/
def decodeBelow (n : Nat) (f : Fin n → Instr) (idx : BitVec 6) : Except DecodeReject Instr :=
  if h : idx.toNat < n then .ok (f ⟨idx.toNat, h⟩) else .error .indexReserved

/-- WEXP: the index runs from 16 to 63 (R83). -/
def decodeWexp (idx : BitVec 6) : Except DecodeReject Instr :=
  if 16 ≤ idx.toNat then .ok (.wexp ⟨idx.toNat, idx.isLt⟩) else .error .indexReserved

/-- The opcode map of R83 and R84, for a word whose `z` is 0. -/
def decodeOpc (opc : BitVec 8) (idx : BitVec 6) : Except DecodeReject Instr :=
  if opc = 0x01#8 then decodePlain .setlen idx
  else if opc = 0x02#8 then decodePlain .start idx
  else if opc = 0x03#8 then decodePlain .getst idx
  else if opc = 0x04#8 then decodeBelow 8 .getw idx
  else if opc = 0x05#8 then decodeBelow 32 .getb idx
  else if opc = 0x06#8 then decodeBelow 64 .getx idx
  else if opc = 0x10#8 then decodePlain .finit idx
  else if opc = 0x11#8 then decodePlain .frame idx
  else if opc = 0x20#8 then decodeBelow 16 .wload idx
  else if opc = 0x21#8 then decodeWexp idx
  else if opc = 0x30#8 then decodePlain .hinit idx
  else if opc = 0x31#8 then decodePlain .seed idx
  else if opc = 0x32#8 then decodeBelow 64 .round idx
  else if opc = 0x33#8 then decodePlain .fold idx
  else if opc = 0x34#8 then decodePlain .emit idx
  else if opc.toNat < 0x40 then .error .functionReserved
  else .error .unitReserved

/-- `Decode` of R84, total on all 65536 words. -/
def decode (w : OpWord) : Except DecodeReject Instr :=
  if zField w ≠ 0#2 then .error .zNotZero else decodeOpc (opcField w) (idxField w)

/-- The operation word of an operation (the "Word" column of R83). -/
def encode : Instr → OpWord
  | .setlen => mkWord 0x01#8 0#6
  | .start => mkWord 0x02#8 0#6
  | .getst => mkWord 0x03#8 0#6
  | .getw i => mkWord 0x04#8 (BitVec.ofNat 6 i.val)
  | .getb j => mkWord 0x05#8 (BitVec.ofNat 6 j.val)
  | .getx j => mkWord 0x06#8 (BitVec.ofNat 6 j.val)
  | .finit => mkWord 0x10#8 0#6
  | .frame => mkWord 0x11#8 0#6
  | .wload i => mkWord 0x20#8 (BitVec.ofNat 6 i.val)
  | .wexp i => mkWord 0x21#8 (BitVec.ofNat 6 i.val)
  | .hinit => mkWord 0x30#8 0#6
  | .seed => mkWord 0x31#8 0#6
  | .round i => mkWord 0x32#8 (BitVec.ofNat 6 i.val)
  | .fold => mkWord 0x33#8 0#6
  | .emit => mkWord 0x34#8 0#6

/-- Who may issue the operation (the "Issuer" column of R83). -/
def Instr.issuer : Instr → Issuer
  | .setlen => .host
  | .start => .host
  | .getst => .host
  | .getw _ => .host
  | .getb _ => .host
  | .getx _ => .host
  | .finit => .sequencer
  | .frame => .sequencer
  | .wload _ => .sequencer
  | .wexp _ => .sequencer
  | .hinit => .sequencer
  | .seed => .sequencer
  | .round _ => .sequencer
  | .fold => .sequencer
  | .emit => .sequencer

/-- Whether a word belongs to the host port: unit field `0x0` (R81). -/
def hostUnit (w : OpWord) : Bool := decide (w.extractLsb' 12 4 = 0#4)

/-- What `decode` reads from the instruction whose bits are `w`, numbered as opcode_table.json numbers them: every operation
is one 16-bit word (R87), so a value that does not fit one word is refused. Operation words are never laid out in memory
(20_memory.md R77): there is no byte order to choose (log entry 9). -/
def decodeTableWord (nbits w : Nat) : Option Instr :=
  let bits := w % 2 ^ nbits
  if bits < 2 ^ 16 then (decode (BitVec.ofNat 16 bits)).toOption else none

end Sys2Proof
end

