-- ==== Sys2Proof/Machine/State.lean ====
section
/-! DEFINITION. The state of one core instance (10_state.md R20), the message space and the host port beside it, the reasons
a step can stop, and the state after reset. K and IV are ROM and stand in Config.lean (R32, R35). -/

namespace Sys2Proof.Machine

/-- The message space MSG (20_memory.md R60) as the bytes that are defined: addresses strictly rising. What an unlisted
address reads as, the reads and writes and the canonical form are in Machine/Memory.lean. -/
abbrev Memory := List Host.Cell

/-- The outcomes that have a cause code (60_exceptions.md R201). -/
inductive Cause where
  /-- The operation was performed. -/
  | ok
  /-- Rejection: the word is reserved or a sequencer word (R202). -/
  | illegalOp
  /-- Rejection: SETLEN or START during a run (R203). -/
  | busy
  /-- Rejection: a digest read while `DONE = 0` (R204). -/
  | notDone
  /-- Rejection: any operation but GETST while `FAULT = 1` (R205). -/
  | faulted
  /-- The fatal fault of the sequencer (R206). -/
  | invariantFault
  deriving DecidableEq, Repr

/-- What a host transaction returns (43_host_commands.md R170). -/
structure Response where
  resp : BitVec 4
  dout : Word
  deriving DecidableEq, Repr

/-- One step of the machine that is still to come (70_reset_and_hazards.md R233). DESIGN CHOICE: log entry 3. -/
inductive Turn where
  /-- (a) a host transaction with its `opw` and `din`. -/
  | hostOp (opw : OpWord) (din : DWord)
  /-- (b) the sequencer takes its step, if it is enabled. -/
  | sequencer
  /-- (c) the RESET event. -/
  | reset
  /-- (d) the host writes a byte of MSG. -/
  | writeMsg (offset : DWord) (b : Byte)
  deriving DecidableEq, Repr

/-- Model faults: no outcome of the hardware. -/
inductive Fault where
  /-- Raised by FRAME only, at the first offset `p < LEN` it would read where MSG has no byte (20_memory.md R67,
  93_implementation_defined.md U3: the model is stuck there, invents no byte and raises no InvariantFault). Safe. -/
  | messageUndefined (offset : Nat)
  deriving DecidableEq, Repr

/-- Refusals. -/
inductive Refusal where
  /-- Raised by an arm of `exec` that has no meaning yet; no arm of this model is one. Safe. -/
  | notModelled (mnemonic : String)
  deriving DecidableEq, Repr

/-- Everything the spec gives the machine, under the spec's names (10_state.md R20). -/
structure State where
  /-- The State, the hash accumulator (R21). -/
  H : Vector Word 8
  /-- The working variables a to h (R22). -/
  V : Vector Word 8
  /-- The message schedule (R24). -/
  W : Vector Word 64
  /-- The current block (R25). -/
  BLK : Vector Byte 64
  /-- The length of the Message in bytes (R27). -/
  LEN : DWord
  /-- The length of the Message in bits, mod 2^64 (R28). -/
  BITLEN : DWord
  /-- The number of blocks (R29). -/
  NBLK : DWord
  /-- The number of blocks framed so far (R30). -/
  BI : DWord
  /-- The sequencer position (R36). -/
  pc : OpWord
  /-- The digest-valid flag (R39). -/
  DONE : Bool
  /-- The fatal-fault flag (R40). -/
  FAULT : Bool
  /-- The cause code of the fatal fault (R40). -/
  CAUSE : BitVec 4
  /-- The message space; the host's, and only read by the core (20_memory.md R60, R62). -/
  msg : Memory
  /-- The host port's data input in the current transaction (43_host_commands.md R170; log entry 8). -/
  din : DWord
  /-- What the last host transaction returned (43_host_commands.md R170); `none` before the first (log entry 2). -/
  response : Option Response
  /-- The model's own: the turns still to come (log entry 3). -/
  schedule : List Turn
  /-- The model's own: the index of the next free value (log entry 6). -/
  freeCount : Nat
  deriving DecidableEq, Repr

/-- The machine right after reset (10_state.md R43, 70_reset_and_hazards.md R230). The spec gives `pc`, `DONE`, `FAULT`,
`CAUSE` and `LEN`; it gives H, V, W, BLK, BITLEN, NBLK and BI no value, and their zeros are a DESIGN CHOICE (log entry 1), as
are the values of `din`, `response`, `schedule` and `freeCount` (log entry 2). MSG has no byte defined (log entry 5). -/
def State.reset : State where
  H := Vector.replicate 8 0#32
  V := Vector.replicate 8 0#32
  W := Vector.replicate 64 0#32
  BLK := Vector.replicate 64 0#8
  LEN := 0#64
  BITLEN := 0#64
  NBLK := 0#64
  BI := 0#64
  pc := 0x0000#16
  DONE := false
  FAULT := false
  CAUSE := 0#4
  msg := []
  din := 0#64
  response := none
  schedule := []
  freeCount := 0

end Sys2Proof.Machine
end

