-- ==== Sys2Proof/Machine/Memory.lean ====
section
/-! DEFINITION. The message space: reading one byte (20_memory.md R64: there is no wider access), the host's write of one
byte (70_reset_and_hazards.md R233 (d)), and the canonical form. -/

namespace Sys2Proof.Machine

/-- What an address that nothing lists reads as: no byte (20_memory.md R67, 93_implementation_defined.md U3; log entry 5). -/
def Memory.unlisted (_p : Nat) : Option Byte := none

/-- `MemRead(p, 1)` (20_memory.md R64): the byte last written to that offset (R66), if one is defined. -/
def Memory.read : Memory → Nat → Option Byte
  | [], p => Memory.unlisted p
  | (q, c) :: m, p => if p = q then some c else Memory.read m p

/-- The host writes a byte. An entry always holds a byte and an unlisted address never reads as one, so no write removes an
entry and the canonical form is: addresses strictly rising. -/
def Memory.write : Memory → Nat → Byte → Memory
  | [], p, b => [(p, b)]
  | (q, c) :: m, p, b =>
    if p < q then (p, b) :: (q, c) :: m
    else if p = q then (p, b) :: m
    else (q, c) :: Memory.write m p b

/-- The addresses rise strictly from `lo` on and lie in the 64-bit offset space (20_memory.md R60). -/
def Memory.risesFrom : Nat → Memory → Bool
  | _, [] => true
  | lo, (q, _) :: m => decide (lo ≤ q) && decide (q < addressSpace) && Memory.risesFrom (q + 1) m

/-- The canonical form: equal contents are equal lists. -/
def Memory.wf (m : Memory) : Bool := Memory.risesFrom 0 m

end Sys2Proof.Machine
end

