-- ==== Sys2Proof/Machine/Operands.lean ====
section
/-! DEFINITION. The functions of words and bytes the operations compute with: rotation and the sigma functions, ch and maj,
the round, the schedule sum, the big-endian conversions, the lengths and PaddedByte, the digest's bytes and characters. -/

namespace Sys2Proof.Machine

/-- Right rotation, for `0 <= n <= 31` (00_scope.md R10). -/
def rotr (x : Word) (n : Nat) : Word := (x >>> n) ||| (x <<< (32 - n))

/-- Small sigma 0 (41_schedule_expander.md R122); the last term is a shift. -/
def ssig0 (x : Word) : Word := rotr x 7 ^^^ rotr x 18 ^^^ (x >>> 3)

/-- Small sigma 1 (41_schedule_expander.md R122); the last term is a shift. -/
def ssig1 (x : Word) : Word := rotr x 17 ^^^ rotr x 19 ^^^ (x >>> 10)

/-- Big sigma 0 (42_round_pipeline.md R143). -/
def bsig0 (x : Word) : Word := rotr x 2 ^^^ rotr x 13 ^^^ rotr x 22

/-- Big sigma 1 (42_round_pipeline.md R143). -/
def bsig1 (x : Word) : Word := rotr x 6 ^^^ rotr x 11 ^^^ rotr x 25

/-- Choice (42_round_pipeline.md R144). -/
def ch (e f g : Word) : Word := (e &&& f) ^^^ (~~~e &&& g)

/-- Majority (42_round_pipeline.md R145). -/
def maj (a b c : Word) : Word := (a &&& b) ^^^ (a &&& c) ^^^ (b &&& c)

/-- The four-term sum of WEXP from `W[i-16]`, `W[i-15]`, `W[i-7]`, `W[i-2]` (41_schedule_expander.md R123). -/
def expandWord (w16 w15 w7 w2 : Word) : Word := w16 + ssig0 w15 + w7 + ssig1 w2

/-- `temp1` of a round with constant `k` and schedule word `w` (42_round_pipeline.md R146). -/
def temp1 (V : Vector Word 8) (k w : Word) : Word := V[7] + bsig1 V[4] + ch V[4] V[5] V[6] + k + w

/-- `temp2` of a round (42_round_pipeline.md R146). -/
def temp2 (V : Vector Word 8) : Word := bsig0 V[0] + maj V[0] V[1] V[2]

/-- The working variables after a round, in array terms (42_round_pipeline.md R146). -/
def roundVars (V : Vector Word 8) (k w : Word) : Vector Word 8 :=
  #v[temp1 V k w + temp2 V, V[0], V[1], V[2], V[3] + temp1 V k w, V[4], V[5], V[6]]

/-- Lane by lane sum mod 2^32, lanes do not carry into each other (42_round_pipeline.md R147). -/
def addLanes (H V : Vector Word 8) : Vector Word 8 := Vector.ofFn fun j => H[j] + V[j]

/-- Four bytes as a big-endian word: the first is bits 31:24 (20_memory.md R68, 41_schedule_expander.md R121). -/
def bigEndianWord (b0 b1 b2 b3 : Byte) : Word := b0 ++ b1 ++ b2 ++ b3

/-- Schedule word `i` of a block (41_schedule_expander.md R121). -/
def blockWord (B : Vector Byte 64) (i : Fin 16) : Word :=
  bigEndianWord B[4 * i.val] B[4 * i.val + 1] B[4 * i.val + 2] B[4 * i.val + 3]

/-- Byte `j` of the 8-byte big-endian field: `v[63-8j : 56-8j]` (20_memory.md R68). -/
def bigEndianByte (v : DWord) (j : Nat) : Byte := v.extractLsb' (56 - 8 * j) 8

/-- `BITLEN` of a length (40_framer.md R101); it wraps from `LEN = 2^61` on (R107). -/
def bitLength (len : DWord) : DWord := BitVec.ofNat 64 (len.toNat * 8)

/-- `NBLK` of a length, formed without overflow (40_framer.md R101). -/
def blockCount (len : DWord) : DWord := BitVec.ofNat 64 ((len.toNat + 8) / 64 + 1)

/-- `PLEN = 64 * NBLK`, on unbounded integers (40_framer.md R102). -/
def paddedLength (nblk : DWord) : Nat := 64 * nblk.toNat

/-- `PaddedByte(p)` (40_framer.md R104), the cases in the rule's order; `.error p` where MSG has no byte at an offset the
rule reads. Outside `p < PLEN` the rule gives no length-field byte: there the value is the free value number `free` (log
entry 6; no state that keeps 10_state.md R44 (d) comes there). -/
def paddedByte (s : State) (free : Nat) (p : Nat) : Except Nat Byte :=
  if p < s.LEN.toNat then
    match s.msg.read p with
    | some b => .ok b
    | none => .error p
  else if p = s.LEN.toNat then .ok 0x80#8
  else if p + 8 < paddedLength s.NBLK then .ok 0x00#8
  else if p < paddedLength s.NBLK then .ok (bigEndianByte s.BITLEN (p + 8 - paddedLength s.NBLK))
  else .ok (Config.freeByte free)

/-- The first `k` bytes of block `n` written over `blk`, in ascending order, up to the first byte that cannot be read
(40_framer.md R103, 20_memory.md R65). -/
def frameFill (s : State) (n : Nat) : Nat → Vector Byte 64 → Except Nat (Vector Byte 64)
  | 0, blk => .ok blk
  | k + 1, blk =>
    match frameFill s n k blk with
    | .ok blk' =>
      match paddedByte s (s.freeCount + k) (64 * n + k) with
      | .ok b => .ok (blk'.setIfInBounds k b)
      | .error p => .error p
    | .error p => .error p

/-- Byte `j` of the digest (42_round_pipeline.md R149). -/
def digestByte (H : Vector Word 8) (j : Fin 32) : Byte := H[j.val / 4].extractLsb' (24 - 8 * (j.val % 4)) 8

/-- Nibble `j` of the digest (42_round_pipeline.md R150). -/
def digestNibble (H : Vector Word 8) (j : Fin 64) : BitVec 4 := H[j.val / 8].extractLsb' (28 - 4 * (j.val % 8)) 4

/-- The code of a lower-case hex digit (43_host_commands.md R176; ASCII is general knowledge in the spec, log entry 12). -/
def hexChar (n : BitVec 4) : Byte :=
  if n.toNat ≤ 9 then 0x30#8 + n.zeroExtend 8 else 0x61#8 + (n.zeroExtend 8 - 10#8)

end Sys2Proof.Machine
end

