-- ==== Sys2Proof/Machine/Flags.lean ====
section
/-! DEFINITION. The flags, the cause codes and the status register. The core has no arithmetic flags (10_state.md R37,
00_scope.md R11). -/

namespace Sys2Proof.Machine

/-- `BUSY = 1` exactly when `pc != 0` (10_state.md R38); it is not stored. -/
def State.busy (s : State) : Bool := decide (s.pc ≠ 0#16)

/-- The cause codes (60_exceptions.md R201). -/
def Cause.code : Cause → BitVec 4
  | .ok => 0#4
  | .illegalOp => 1#4
  | .busy => 2#4
  | .notDone => 3#4
  | .faulted => 4#4
  | .invariantFault => 5#4

/-- `STATUS` (10_state.md R37, 43_host_commands.md R173): CAUSE in bits 7:4, bit 3 zero, FAULT, DONE, BUSY, the rest zero. -/
def State.status (s : State) : Word :=
  (s.CAUSE ++ 0#1 ++ BitVec.ofBool s.FAULT ++ BitVec.ofBool s.DONE ++ BitVec.ofBool s.busy).zeroExtend 32

end Sys2Proof.Machine
end

