-- ==== Sys2Proof/Machine/Ops.lean ====
section
/-! DEFINITION. The shared operations on the state: answering and rejecting a host transaction, the two groups of host
checks, the sequencer's advance, taking the fatal fault, RESET, and the host's write to MSG. -/

namespace Sys2Proof.Machine

/-- The transaction was performed and returns `(OK, v)` (43_host_commands.md R170). -/
def State.answer (s : State) (v : Word) : State := { s with response := some ⟨Cause.ok.code, v⟩ }

/-- The transaction is rejected: `resp` is the cause code, `dout` is 0, nothing else changes (60_exceptions.md R200 (b)). -/
def State.reject (s : State) (c : Cause) : State := { s with response := some ⟨c.code, 0#32⟩ }

/-- The checks of SETLEN and START after decoding, in the order of 43_host_commands.md R170 and 60_exceptions.md R209. -/
def State.whenIdle (s performed : State) : State :=
  if s.FAULT then s.reject .faulted
  else if s.pc ≠ 0#16 then s.reject .busy
  else performed

/-- The checks of GETW, GETB and GETX after decoding, in the order of 43_host_commands.md R170 and 60_exceptions.md R209. -/
def State.whenDone (s : State) (v : Word) : State :=
  if s.FAULT then s.reject .faulted
  else if s.DONE = false then s.reject .notDone
  else s.answer v

/-- `pc <- target` (10_state.md R36). -/
def State.goto (s : State) (target : OpWord) : State := { s with pc := target }

/-- The successor of an operation with an index (30_encoding.md R88): the next index of the same operation, or `after` when
`i` is the last. -/
def nextPosition (base : OpWord) (i last : Nat) (after : OpWord) : OpWord :=
  if i < last then base + BitVec.ofNat 16 (i + 1) else after

/-- Entry of InvariantFault (60_exceptions.md R206), and nothing else. It saves only CAUSE and halts the sequencer: there is
no handler, no vector and no return operation (R210, R211); only `State.resetEvent` leaves the condition. -/
def State.takeInvariantFault (s : State) : State :=
  { s with FAULT := true, CAUSE := Cause.invariantFault.code, DONE := false, pc := 0x0000#16 }

/-- RESET at any moment (70_reset_and_hazards.md R230): the core is as `State.reset` says, MSG is unchanged. The turns still
to come are not the core's and stay; the free values go on being fresh (log entry 2). -/
def State.resetEvent (s : State) : State :=
  { State.reset with msg := s.msg, schedule := s.schedule, freeCount := s.freeCount }

/-- The host writes a byte of MSG (70_reset_and_hazards.md R233 (d)). -/
def State.hostWrite (s : State) (offset : DWord) (b : Byte) : State :=
  { s with msg := s.msg.write offset.toNat b }

end Sys2Proof.Machine
end

