-- ==== Sys2Proof/Machine/Expander.lean ====
section
/-! DEFINITION. Unit EXP: WLOAD and WEXP (41_schedule_expander.md). -/

namespace Sys2Proof.Machine

/-- WLOAD i (41_schedule_expander.md R121). -/
def execWload (i : Fin 16) (s : State) : Host.Outcome State Fault Refusal :=
  .next ({ s with W := s.W.set i.val (blockWord s.BLK i) }.goto (nextPosition 0x2000#16 i.val 15 0x2110#16))

/-- WEXP i (41_schedule_expander.md R123). An index below 16 is a reserved word (30_encoding.md R85), which in `pc` is
InvariantFault (log entry 11); the decoder never gives one. -/
def execWexp (i : Fin 64) (s : State) : Host.Outcome State Fault Refusal :=
  if 16 ≤ i.val then
    let word := expandWord s.W[i.val - 16] s.W[i.val - 15] s.W[i.val - 7] s.W[i.val - 2]
    .next ({ s with W := s.W.set i.val word }.goto (nextPosition 0x2100#16 i.val 63 0x3100#16))
  else .next s.takeInvariantFault

end Sys2Proof.Machine
end

