-- ==== Sys2Proof/Machine/Framer.lean ====
section
/-! DEFINITION. Unit FRM: FINIT and FRAME (40_framer.md). -/

namespace Sys2Proof.Machine

/-- FINIT (40_framer.md R101). -/
def execFinit (s : State) : Host.Outcome State Fault Refusal :=
  .next ({ s with BITLEN := bitLength s.LEN, NBLK := blockCount s.LEN, BI := 0#64 }.goto 0x3000#16)

/-- FRAME (40_framer.md R103): block number `BI`. `BI + 1` is kept in 64 bits (log entry 7). -/
def execFrame (s : State) : Host.Outcome State Fault Refusal :=
  match frameFill s s.BI.toNat 64 s.BLK with
  | .ok blk =>
    .next ({ s with BLK := blk, BI := BitVec.ofNat 64 (s.BI.toNat + 1), freeCount := s.freeCount + 64 }.goto 0x2000#16)
  | .error p => .fault (.messageUndefined p)

end Sys2Proof.Machine
end

