-- ==== Sys2Proof/Machine/HostCommands.lean ====
section
/-! DEFINITION. The host operations: SETLEN, START, GETST, GETW, GETB and GETX (43_host_commands.md). `din` is the port's data
input, which only SETLEN looks at. -/

namespace Sys2Proof.Machine

/-- SETLEN (43_host_commands.md R171). -/
def execSetlen (s : State) : Host.Outcome State Fault Refusal :=
  .next (s.whenIdle ({ s with LEN := s.din }.answer 0#32))

/-- START (43_host_commands.md R172). -/
def execStart (s : State) : Host.Outcome State Fault Refusal :=
  .next (s.whenIdle (({ s with DONE := false }.goto 0x1000#16).answer 0#32))

/-- GETST (43_host_commands.md R173), accepted in every state. -/
def execGetst (s : State) : Host.Outcome State Fault Refusal :=
  .next (s.answer s.status)

/-- GETW i (43_host_commands.md R174). -/
def execGetw (i : Fin 8) (s : State) : Host.Outcome State Fault Refusal :=
  .next (s.whenDone s.H[i])

/-- GETB j (43_host_commands.md R175). -/
def execGetb (j : Fin 32) (s : State) : Host.Outcome State Fault Refusal :=
  .next (s.whenDone ((digestByte s.H j).zeroExtend 32))

/-- GETX j (43_host_commands.md R176). -/
def execGetx (j : Fin 64) (s : State) : Host.Outcome State Fault Refusal :=
  .next (s.whenDone ((hexChar (digestNibble s.H j)).zeroExtend 32))

end Sys2Proof.Machine
end

