-- ==== Sys2Proof/Machine/RoundPipeline.lean ====
section
/-! DEFINITION. Unit RND: HINIT, SEED, ROUND, FOLD and EMIT (42_round_pipeline.md). -/

namespace Sys2Proof.Machine

/-- HINIT (42_round_pipeline.md R141). -/
def execHinit (s : State) : Host.Outcome State Fault Refusal :=
  .next ({ s with H := Config.IV }.goto 0x1100#16)

/-- SEED (42_round_pipeline.md R142). -/
def execSeed (s : State) : Host.Outcome State Fault Refusal :=
  .next ({ s with V := s.H }.goto 0x3200#16)

/-- ROUND i (42_round_pipeline.md R146). -/
def execRound (i : Fin 64) (s : State) : Host.Outcome State Fault Refusal :=
  .next ({ s with V := roundVars s.V Config.K[i] s.W[i] }.goto (nextPosition 0x3200#16 i.val 63 0x3300#16))

/-- FOLD (42_round_pipeline.md R147): the core's only conditional transfer. -/
def execFold (s : State) : Host.Outcome State Fault Refusal :=
  .next ({ s with H := addLanes s.H s.V }.goto (if s.BI.toNat < s.NBLK.toNat then 0x1100#16 else 0x3400#16))

/-- EMIT (42_round_pipeline.md R148). -/
def execEmit (s : State) : Host.Outcome State Fault Refusal :=
  .next ({ s with DONE := true }.goto 0x0000#16)

end Sys2Proof.Machine
end

