-- ==== Sys2Proof/Machine/Dispatch.lean ====
section
/-! DEFINITION. One arm per operation: what it does in a given state. -/

namespace Sys2Proof.Machine

/-- The meaning of each operation of the opcode map (30_encoding.md R83). -/
def exec (i : Instr) (s : State) : Host.Outcome State Fault Refusal :=
  match i with
  | .setlen => Sys2Proof.Machine.execSetlen s
  | .start => Sys2Proof.Machine.execStart s
  | .getst => Sys2Proof.Machine.execGetst s
  | .getw j => Sys2Proof.Machine.execGetw j s
  | .getb j => Sys2Proof.Machine.execGetb j s
  | .getx j => Sys2Proof.Machine.execGetx j s
  | .finit => Sys2Proof.Machine.execFinit s
  | .frame => Sys2Proof.Machine.execFrame s
  | .wload k => Sys2Proof.Machine.execWload k s
  | .wexp k => Sys2Proof.Machine.execWexp k s
  | .hinit => Sys2Proof.Machine.execHinit s
  | .seed => Sys2Proof.Machine.execSeed s
  | .round k => Sys2Proof.Machine.execRound k s
  | .fold => Sys2Proof.Machine.execFold s
  | .emit => Sys2Proof.Machine.execEmit s

end Sys2Proof.Machine
end

