-- ==== Sys2Proof/Machine/Agents.lean ====
section
/-! DEFINITION. The two agents: a host transaction and a sequencer step (70_reset_and_hazards.md R233), and where an
operation word is placed so that the next step runs it. -/

namespace Sys2Proof.Machine

/-- `HostOp(opw, din)` with `din` already on the port (43_host_commands.md R170): a reserved word and a sequencer word are
IllegalOp in every state (60_exceptions.md R202); the other checks are the operations' own. -/
def hostTransaction (opw : OpWord) (s : State) : Host.Outcome State Fault Refusal :=
  match decode opw with
  | .ok i =>
    match i.issuer with
    | .host => exec i s
    | .sequencer => .next (s.reject .illegalOp)
  | .error _ => .next (s.reject .illegalOp)

/-- A sequencer step (70_reset_and_hazards.md R233 (b)): the operation `pc` holds, or InvariantFault when it is none or a host
operation (60_exceptions.md R206). With `pc = 0` it is not enabled and nothing changes (30_encoding.md R88; log entry 4). -/
def sequencerStep (s : State) : Host.Outcome State Fault Refusal :=
  if s.pc = 0#16 then .next s
  else
    match decode s.pc with
    | .ok i =>
      match i.issuer with
      | .sequencer => exec i s
      | .host => .next s.takeInvariantFault
    | .error _ => .next s.takeInvariantFault

/-- One turn, already taken off the schedule. -/
def takeTurn (t : Turn) (s : State) : Host.Outcome State Fault Refusal :=
  match t with
  | .hostOp opw din => hostTransaction opw { s with din := din }
  | .sequencer => sequencerStep s
  | .reset => .next s.resetEvent
  | .writeMsg offset b => .next (s.hostWrite offset b)

/-- The next step of the machine: the first turn of the schedule; when the schedule is used up, the sequencer goes on by
itself (70_reset_and_hazards.md R234; log entry 3). -/
def nextTurn (s : State) : Host.Outcome State Fault Refusal :=
  match s.schedule with
  | [] => sequencerStep s
  | t :: rest => takeTurn t { s with schedule := rest }

/-- `s` with an operation word where the next step looks for it (log entry 10): a word of the host unit is presented at the
host port next, with the `din` that is there; any other word is put into `pc` and the sequencer has the next turn. -/
def placeWord (s : State) (w : OpWord) : State :=
  if hostUnit w then { s with schedule := .hostOp w s.din :: s.schedule }
  else { s with pc := w, schedule := .sequencer :: s.schedule }

end Sys2Proof.Machine
end

