-- ==== Sys2Proof/Machine/Digest.lean ====
section
/-! DEFINITION. The digest of a byte sequence as ONE function of the bytes, over lists and without the machine's state
(40_framer.md R100, 41_schedule_expander.md R124, 42_round_pipeline.md R152). No meaning of an operation calls it: the claims
compare the machine with it. The length field wraps from 2^61 bytes on, as R107 says. -/

namespace Sys2Proof.Machine

/-- `k`, the number of zero bytes, `(55 - L) mod 64` (40_framer.md R102). -/
def zeroCount (L : Nat) : Nat := (119 - L % 64) % 64

/-- The number of blocks of an `L`-byte message, `ceil((L+9)/64)` (40_framer.md R102). -/
def blocksFor (L : Nat) : Nat := (L + 9 + 63) / 64

/-- The Padded Message: the Message, one `0x80` byte, `k` zero bytes, the 8-byte big-endian bit-length (40_framer.md R100). -/
def padMessage (m : List Byte) : List Byte :=
  m ++ [0x80#8] ++ List.replicate (zeroCount m.length) 0x00#8 ++
    (List.range 8).map (bigEndianByte (BitVec.ofNat 64 (8 * m.length)))

/-- Block `n`: bytes `64n .. 64n+63` of the Padded Message (40_framer.md R106). -/
def messageBlock (m : List Byte) (n : Nat) : Vector Byte 64 :=
  Vector.ofFn fun j => (padMessage m).getD (64 * n + j.val) 0x00#8

/-- One more schedule word after the words `w`, by the recurrence of 41_schedule_expander.md R123 at `i = w.length`. -/
def nextScheduleWord (w : List Word) : Word :=
  expandWord (w.getD (w.length - 16) 0) (w.getD (w.length - 15) 0) (w.getD (w.length - 7) 0) (w.getD (w.length - 2) 0)

/-- `w` followed by `k` more schedule words. -/
def growSchedule : Nat → List Word → List Word
  | 0, w => w
  | k + 1, w => growSchedule k (w ++ [nextScheduleWord w])

/-- `Sched(B)`: the 64 schedule words of a block (41_schedule_expander.md R124). -/
def scheduleOf (B : Vector Byte 64) : List Word := growSchedule 48 ((List.finRange 16).map (blockWord B))

/-- The rounds whose constants and schedule words are listed, first to last (42_round_pipeline.md R152). -/
def roundsOver : List (Word × Word) → Vector Word 8 → Vector Word 8
  | [], V => V
  | (k, w) :: rest, V => roundsOver rest (roundVars V k w)

/-- `Comp(S, B)` (42_round_pipeline.md R152). -/
def compress (S : Vector Word 8) (B : Vector Byte 64) : Vector Word 8 :=
  addLanes S (roundsOver (Config.K.toList.zip (scheduleOf B)) S)

/-- The State after the first `n` blocks of the message (42_round_pipeline.md R152). -/
def stateAfter (m : List Byte) : Nat → Vector Word 8
  | 0 => Config.IV
  | n + 1 => compress (stateAfter m n) (messageBlock m n)

/-- The digest of a message, as the eight State words (42_round_pipeline.md R149, R152). -/
def digestOf (m : List Byte) : Vector Word 8 := stateAfter m (blocksFor m.length)

end Sys2Proof.Machine
end

