-- ==== Sys2Proof/Safety.lean ====
section
/-! DEFINITION. The terms claims are made in: the legal words and positions, the invariant of the state, the premises of a
run, and the read and write sets of the operations. -/

namespace Sys2Proof.Machine

/-- `base`, `base + 1`, ... , `n` words. -/
def wordsFrom (base : OpWord) (n : Nat) : List OpWord := (List.range n).map fun k => base + BitVec.ofNat 16 k

/-- The 107 legal host words (30_encoding.md R83, R84). -/
def hostWords : List OpWord :=
  [0x0100#16, 0x0200#16, 0x0300#16] ++ wordsFrom 0x0400#16 8 ++ wordsFrom 0x0500#16 32 ++ wordsFrom 0x0600#16 64

/-- The 134 legal sequencer words (30_encoding.md R83, R84). -/
def sequencerWords : List OpWord :=
  [0x1000#16, 0x3000#16, 0x1100#16] ++ wordsFrom 0x2000#16 16 ++ wordsFrom 0x2110#16 48 ++ [0x3100#16] ++ wordsFrom 0x3200#16 64 ++
    [0x3300#16, 0x3400#16]

/-- The 135 values of `pc` (10_state.md R36). -/
def legalPc (pc : OpWord) : Bool := decide (pc = 0#16 ∨ pc ∈ sequencerWords)

/-- `pc` is at or past HINIT in a run (10_state.md R44 (d)): neither halted nor at FINIT. -/
def pastFinit (pc : OpWord) : Prop := pc ≠ 0x0000#16 ∧ pc ≠ 0x1000#16

/-- The invariants of the state (10_state.md R44 (a) to (d)) and what makes them inductive: what FINIT computed from `LEN`
still stands during the run, and the block loop has run as often as `BI` says. -/
structure StateInv (s : State) : Prop where
  /-- MSG keeps its canonical form. -/
  msg_wf : s.msg.wf = true
  /-- R44 (c). -/
  legal_pc : legalPc s.pc = true
  /-- R44 (a). -/
  done_halted : s.DONE = true → s.pc = 0x0000#16 ∧ s.FAULT = false
  /-- R44 (b), first half. -/
  fault_halted : s.FAULT = true → s.pc = 0x0000#16 ∧ s.DONE = false ∧ s.CAUSE = 5#4
  /-- R44 (b), second half. -/
  no_cause : s.FAULT = false → s.CAUSE = 0#4
  /-- The lengths are those FINIT computes from `LEN` (R28, R29), which no run changes. -/
  lengths : pastFinit s.pc → s.BITLEN = bitLength s.LEN ∧ s.NBLK = blockCount s.LEN
  /-- R44 (d). -/
  blocks : pastFinit s.pc → s.BI.toNat ≤ s.NBLK.toNat ∧ 1 ≤ s.NBLK.toNat
  /-- No block is framed before the first FRAME. -/
  none_framed : s.pc = 0x3000#16 → s.BI = 0#64
  /-- R44 (d): at FRAME a block remains. -/
  block_remains : s.pc = 0x1100#16 → s.BI.toNat < s.NBLK.toNat
  /-- Past FRAME a block has been framed. -/
  one_framed : pastFinit s.pc → s.pc ≠ 0x3000#16 → s.pc ≠ 0x1100#16 → 1 ≤ s.BI.toNat
  /-- EMIT comes after the last block (42_round_pipeline.md R147). -/
  all_framed : s.pc = 0x3400#16 → s.BI = s.NBLK
  /-- R44 (e), the part that is about registers. -/
  done_framed : s.DONE = true → s.BI = s.NBLK

/-- Every byte a run reads is defined (20_memory.md R67; 70_reset_and_hazards.md R242, LP2). -/
def MessageDefined (s : State) : Prop := ∀ p, p < s.LEN.toNat → ∃ b, s.msg.read p = some b

/-- `MSG[0 .. LEN-1]` is the byte sequence `m`. -/
def MessageIs (s : State) (m : List Byte) : Prop :=
  s.LEN.toNat = m.length ∧ ∀ p, p < m.length → s.msg.read p = m[p]?

/-- A turn of the host port or of the sequencer: neither RESET nor a write to MSG (70_reset_and_hazards.md R242, LP3, LP4). -/
def Turn.harmless : Turn → Bool
  | .hostOp _ _ => true
  | .sequencer => true
  | .reset => false
  | .writeMsg _ _ => false

/-- The successor table of 30_encoding.md R88; `more` is FOLD's test `BI < NBLK`. Inside a run of one indexed operation the
position goes up by one. -/
def successorOf (pc : OpWord) (more : Bool) : OpWord :=
  if pc = 0x0000#16 then 0x0000#16
  else if pc = 0x1000#16 then 0x3000#16
  else if pc = 0x3000#16 then 0x1100#16
  else if pc = 0x1100#16 then 0x2000#16
  else if pc = 0x200F#16 then 0x2110#16
  else if pc = 0x213F#16 then 0x3100#16
  else if pc = 0x3100#16 then 0x3200#16
  else if pc = 0x323F#16 then 0x3300#16
  else if pc = 0x3300#16 then (if more then 0x1100#16 else 0x3400#16)
  else if pc = 0x3400#16 then 0x0000#16
  else pc + 1#16

/-- The columns of the table of 10_state.md R46 (K and IV, which nothing writes, apart), MSG among them, and the port's `din`. -/
inductive Reg where
  | LEN | BITLEN | NBLK | BI | MSG | BLK | W | H | V | pc | DONE | faultCause | din
  deriving DecidableEq, Repr

/-- The states agree on a register. -/
def Reg.same : Reg → State → State → Prop
  | .LEN, s, t => s.LEN = t.LEN
  | .BITLEN, s, t => s.BITLEN = t.BITLEN
  | .NBLK, s, t => s.NBLK = t.NBLK
  | .BI, s, t => s.BI = t.BI
  | .MSG, s, t => ∀ p, s.msg.read p = t.msg.read p
  | .BLK, s, t => s.BLK = t.BLK
  | .W, s, t => s.W = t.W
  | .H, s, t => s.H = t.H
  | .V, s, t => s.V = t.V
  | .pc, s, t => s.pc = t.pc
  | .DONE, s, t => s.DONE = t.DONE
  | .faultCause, s, t => s.FAULT = t.FAULT ∧ s.CAUSE = t.CAUSE
  | .din, s, t => s.din = t.din

/-- `t` is `s` but for one register. -/
def Reg.differOnlyAt : Reg → State → State → Prop
  | .LEN, s, t => ∃ v, t = { s with LEN := v }
  | .BITLEN, s, t => ∃ v, t = { s with BITLEN := v }
  | .NBLK, s, t => ∃ v, t = { s with NBLK := v }
  | .BI, s, t => ∃ v, t = { s with BI := v }
  | .MSG, s, t => ∃ v, t = { s with msg := v }
  | .BLK, s, t => ∃ v, t = { s with BLK := v }
  | .W, s, t => ∃ v, t = { s with W := v }
  | .H, s, t => ∃ v, t = { s with H := v }
  | .V, s, t => ∃ v, t = { s with V := v }
  | .pc, s, t => ∃ v, t = { s with pc := v }
  | .DONE, s, t => ∃ v, t = { s with DONE := v }
  | .faultCause, s, t => ∃ v w, t = { s with FAULT := v, CAUSE := w }
  | .din, s, t => ∃ v, t = { s with din := v }

/-- The `r` columns of the table of 10_state.md R46, and `din` for SETLEN. -/
def readSet : Instr → List Reg
  | .setlen => [.pc, .faultCause, .din]
  | .start => [.pc, .faultCause]
  | .getst => [.pc, .DONE, .faultCause]
  | .getw _ => [.H, .DONE, .faultCause]
  | .getb _ => [.H, .DONE, .faultCause]
  | .getx _ => [.H, .DONE, .faultCause]
  | .finit => [.LEN]
  | .frame => [.LEN, .BITLEN, .NBLK, .BI, .MSG]
  | .wload _ => [.BLK]
  | .wexp _ => [.W]
  | .hinit => []
  | .seed => [.H]
  | .round _ => [.W, .V]
  | .fold => [.NBLK, .BI, .H, .V]
  | .emit => []

/-- The `w` columns of the table of 10_state.md R46. -/
def writeSet : Instr → List Reg
  | .setlen => [.LEN]
  | .start => [.pc, .DONE]
  | .getst => []
  | .getw _ => []
  | .getb _ => []
  | .getx _ => []
  | .finit => [.BITLEN, .NBLK, .BI, .pc]
  | .frame => [.BI, .BLK, .pc]
  | .wload _ => [.W, .pc]
  | .wexp _ => [.W, .pc]
  | .hinit => [.H, .pc]
  | .seed => [.V, .pc]
  | .round _ => [.V, .pc]
  | .fold => [.H, .pc]
  | .emit => [.pc, .DONE]

/-- Two outcomes are the same but for one register. -/
def Reg.outcomesDifferOnlyAt (r : Reg) :
    Host.Outcome State Fault Refusal → Host.Outcome State Fault Refusal → Prop
  | .next s, .next t => r.differOnlyAt s t
  | .fault e, .fault f => e = f
  | _, _ => False

end Sys2Proof.Machine
end

