-- ==== Sys2Proof/Certificates/Slice0/Obligations.lean ====
section
/-! DEFINITION. The statements for the provers. Each docstring names the rule of spec/ it formalises, or the model's choice it
rests on. -/

open Sys2Proof Sys2Proof.Machine

/-- 30_encoding.md R84: the decoder is the pseudocode of the rule, on the fields as numbers, and exactly the 107 host words and
134 sequencer words are legal. -/
def Obligations.DecodeIsTheOpcodeMap : Prop :=
  (∀ w : OpWord, (decode w).toOption =
    let opc := w.toNat / 256
    let z := w.toNat / 64 % 4
    let idx := w.toNat % 64
    if z ≠ 0 then none
    else if opc = 0x01 ∧ idx = 0 then some .setlen
    else if opc = 0x02 ∧ idx = 0 then some .start
    else if opc = 0x03 ∧ idx = 0 then some .getst
    else if opc = 0x04 ∧ idx ≤ 7 then some (.getw (Fin.ofNat 8 idx))
    else if opc = 0x05 ∧ idx ≤ 31 then some (.getb (Fin.ofNat 32 idx))
    else if opc = 0x06 then some (.getx (Fin.ofNat 64 idx))
    else if opc = 0x10 ∧ idx = 0 then some .finit
    else if opc = 0x11 ∧ idx = 0 then some .frame
    else if opc = 0x20 ∧ idx ≤ 15 then some (.wload (Fin.ofNat 16 idx))
    else if opc = 0x21 ∧ 16 ≤ idx then some (.wexp (Fin.ofNat 64 idx))
    else if opc = 0x30 ∧ idx = 0 then some .hinit
    else if opc = 0x31 ∧ idx = 0 then some .seed
    else if opc = 0x32 then some (.round (Fin.ofNat 64 idx))
    else if opc = 0x33 ∧ idx = 0 then some .fold
    else if opc = 0x34 ∧ idx = 0 then some .emit
    else none) ∧
  (∀ w : OpWord, (∃ i, decode w = .ok i ∧ i.issuer = .host) ↔ w ∈ hostWords) ∧
  (∀ w : OpWord, (∃ i, decode w = .ok i ∧ i.issuer = .sequencer) ↔ w ∈ sequencerWords) ∧
  hostWords.Nodup ∧ hostWords.length = 107 ∧ sequencerWords.Nodup ∧ sequencerWords.length = 134

/-- The match and mask columns of the opcode map (30_encoding.md R83): a word encodes the operation of a row exactly when
`(w and mask) = match` (and the index is at least 16 for WEXP), and an index operand is `w[5:0]` as it stands (R82). -/
def Obligations.RowsMatchTheirMasks : Prop :=
  ∀ w : OpWord,
    (decode w = .ok .setlen ↔ w &&& 0xFFFF#16 = 0x0100#16) ∧
    (decode w = .ok .start ↔ w &&& 0xFFFF#16 = 0x0200#16) ∧
    (decode w = .ok .getst ↔ w &&& 0xFFFF#16 = 0x0300#16) ∧
    (∀ i, decode w = .ok (.getw i) ↔ w &&& 0xFFF8#16 = 0x0400#16 ∧ (w &&& 0x3F#16).toNat = i.val) ∧
    (∀ j, decode w = .ok (.getb j) ↔ w &&& 0xFFE0#16 = 0x0500#16 ∧ (w &&& 0x3F#16).toNat = j.val) ∧
    (∀ j, decode w = .ok (.getx j) ↔ w &&& 0xFFC0#16 = 0x0600#16 ∧ (w &&& 0x3F#16).toNat = j.val) ∧
    (decode w = .ok .finit ↔ w &&& 0xFFFF#16 = 0x1000#16) ∧
    (decode w = .ok .frame ↔ w &&& 0xFFFF#16 = 0x1100#16) ∧
    (∀ i, decode w = .ok (.wload i) ↔ w &&& 0xFFF0#16 = 0x2000#16 ∧ (w &&& 0x3F#16).toNat = i.val) ∧
    (∀ i, decode w = .ok (.wexp i) ↔ w &&& 0xFFC0#16 = 0x2100#16 ∧ (w &&& 0x3F#16).toNat = i.val ∧ 16 ≤ i.val) ∧
    (decode w = .ok .hinit ↔ w &&& 0xFFFF#16 = 0x3000#16) ∧
    (decode w = .ok .seed ↔ w &&& 0xFFFF#16 = 0x3100#16) ∧
    (∀ i, decode w = .ok (.round i) ↔ w &&& 0xFFC0#16 = 0x3200#16 ∧ (w &&& 0x3F#16).toNat = i.val) ∧
    (decode w = .ok .fold ↔ w &&& 0xFFFF#16 = 0x3300#16) ∧
    (decode w = .ok .emit ↔ w &&& 0xFFFF#16 = 0x3400#16)

/-- Every well-formed operation, with every operand its encoding admits, decodes from its own word. -/
def Obligations.DecodeOfEncode : Prop :=
  ∀ i : Instr, i.wf = true → decode (encode i) = .ok i

/-- Every legal word has one meaning, and the operation it decodes to is well formed. -/
def Obligations.EncodeOfDecode : Prop :=
  ∀ (w : OpWord) (i : Instr), decode w = .ok i → encode i = w ∧ i.wf = true

/-- The example words of 30_encoding.md R83 and one word of each kind of reserved word of R85. -/
def Obligations.WordsWrittenOut : Prop :=
  decode 0x3205#16 = .ok (.round 5) ∧ decode 0x2110#16 = .ok (.wexp 16) ∧ decode 0x213F#16 = .ok (.wexp 63) ∧
  decode 0x0407#16 = .ok (.getw 7) ∧ decode 0x063F#16 = .ok (.getx 63) ∧ decode 0x200F#16 = .ok (.wload 15) ∧
  decode 0x0000#16 = .error .functionReserved ∧ decode 0x0408#16 = .error .indexReserved ∧
  decode 0x210F#16 = .error .indexReserved ∧ decode 0x0140#16 = .error .zNotZero ∧ decode 0x4000#16 = .error .unitReserved

/-- 70_reset_and_hazards.md R233 (a), (b): a step is `exec` of the operation in `pc` when the sequencer has the turn (given, or
because the schedule is used up), and `exec` of the operation on the host port when the host has it. -/
def Obligations.StepRunsTheDecodedOperation : Prop :=
  ∀ (s : State) (i : Instr),
    (i.issuer = .sequencer → decode s.pc = .ok i →
      (s.schedule = [] → step s = exec i s) ∧
      (∀ rest, s.schedule = .sequencer :: rest → step s = exec i { s with schedule := rest })) ∧
    (i.issuer = .host → ∀ opw din rest, s.schedule = .hostOp opw din :: rest → decode opw = .ok i →
      step s = exec i { s with schedule := rest, din := din })

/-- 70_reset_and_hazards.md R230 and R233 (c), (d), through `step`. What R230 gives no value is not spoken of (log entry 1);
that the later turns stay is the model's (log entry 2). -/
def Obligations.StepTakesResetAndMessageWrites : Prop :=
  ∀ (s : State) (rest : List Turn),
    (s.schedule = .reset :: rest → ∃ t, step s = .next t ∧ t.pc = 0x0000#16 ∧ t.DONE = false ∧ t.FAULT = false ∧
      t.CAUSE = 0#4 ∧ t.LEN = 0#64 ∧ t.msg = s.msg ∧ t.schedule = rest) ∧
    (∀ p b, s.schedule = .writeMsg p b :: rest → ∃ t, step s = .next t ∧
      t = { s with msg := t.msg, schedule := rest } ∧ t.msg.read p.toNat = some b ∧
      ∀ q, q ≠ p.toNat → t.msg.read q = s.msg.read q)

/-- 30_encoding.md R88, first row, with the model's choice of log entry 4: where no step of the core is enabled the machine
stays as it is, whether the schedule is used up or gives the sequencer a turn it cannot take. -/
def Obligations.IdleCoreWaits : Prop :=
  ∀ s : State, s.pc = 0x0000#16 →
    (s.schedule = [] → step s = .next s) ∧
    (∀ rest, s.schedule = .sequencer :: rest → step s = .next { s with schedule := rest })

/-- The model stops in one way only (log entry 5): FRAME, at an offset below LEN where MSG has no byte. -/
def Obligations.StepStopsOnlyAtAnUndefinedMessageByte : Prop :=
  (∀ (s : State) (r : Refusal), step s ≠ .refused r) ∧
  (∀ (s : State) (e : Fault), step s = .fault e → ∃ p, e = .messageUndefined p ∧ s.pc = 0x1100#16 ∧ p < s.LEN.toNat ∧
    64 * s.BI.toNat ≤ p ∧ p < 64 * s.BI.toNat + 64 ∧ s.msg.read p = none)

/-- The values 10_state.md R43 gives for reset, and STATUS (70_reset_and_hazards.md R231). -/
def Obligations.ResetValues : Prop :=
  State.reset.pc = 0x0000#16 ∧ State.reset.DONE = false ∧ State.reset.FAULT = false ∧ State.reset.CAUSE = 0#4 ∧
  State.reset.LEN = 0#64 ∧ State.reset.status = 0x00000000#32 ∧ ∀ p, State.reset.msg.read p = none

/-- 43_host_commands.md R170 (and the order of 60_exceptions.md R209): the checks in their order, each with its response, a
rejection changing nothing else and returning `dout = 0`; when none of them fails the operation is performed with `resp = 0`;
`din` is ignored by every operation but SETLEN (93_implementation_defined.md U9). -/
def Obligations.HostTransactionFollowsTheCheckOrder : Prop :=
  ∀ (opw : OpWord) (s : State),
    ((∀ i, decode opw = .ok i → i.issuer = .sequencer) →
      hostTransaction opw s = .next { s with response := some ⟨1#4, 0#32⟩ }) ∧
    (decode opw = .ok .getst → hostTransaction opw s = .next { s with response := some ⟨0#4, s.status⟩ }) ∧
    (∀ i, decode opw = .ok i → i.issuer = .host → i ≠ .getst →
      (s.FAULT = true → hostTransaction opw s = .next { s with response := some ⟨4#4, 0#32⟩ }) ∧
      (s.FAULT = false → (i = .setlen ∨ i = .start) → s.pc ≠ 0#16 →
        hostTransaction opw s = .next { s with response := some ⟨2#4, 0#32⟩ }) ∧
      (s.FAULT = false → i ≠ .setlen → i ≠ .start → s.DONE = false →
        hostTransaction opw s = .next { s with response := some ⟨3#4, 0#32⟩ }) ∧
      (s.FAULT = false → ((i = .setlen ∨ i = .start) → s.pc = 0#16) → ((i = .setlen ∨ i = .start) ∨ s.DONE = true) →
        ∃ t r, hostTransaction opw s = .next t ∧ exec i s = .next t ∧ t.response = some r ∧ r.resp = 0#4 ∧
          ((i = .setlen ∨ i = .start) → r.dout = 0#32))) ∧
    (decode opw ≠ .ok .setlen → ∀ d t, hostTransaction opw s = .next t →
      hostTransaction opw { s with din := d } = .next { t with din := d })

/-- 60_exceptions.md R202: every word that is not a host word is IllegalOp in every state, and nothing else changes. -/
def Obligations.IllegalWordsAreRejected : Prop :=
  ∀ (w : OpWord) (s : State), w ∉ hostWords → hostTransaction w s = .next { s with response := some ⟨1#4, 0#32⟩ }

/-- 60_exceptions.md R206: the entry of InvariantFault, from every `pc` that is neither 0 nor a legal sequencer word; then no
turn but RESET clears FAULT or starts the sequencer, and RESET does clear it. -/
def Obligations.InvariantFaultEntry : Prop :=
  ∀ s : State, s.pc ≠ 0#16 → s.pc ∉ sequencerWords →
    ∃ t, sequencerStep s = .next t ∧ t = { s with FAULT := true, CAUSE := 5#4, DONE := false, pc := 0x0000#16 } ∧
      (∀ turn, turn ≠ .reset → ∃ u, takeTurn turn t = .next u ∧ u.FAULT = true ∧ u.CAUSE = 5#4 ∧ u.DONE = false ∧
        u.pc = 0x0000#16) ∧
      (∃ u, takeTurn .reset t = .next u ∧ u.FAULT = false)

/-- 10_state.md R40 and 60_exceptions.md R206: in a halted faulted core no turn but RESET clears FAULT, starts the sequencer,
sets DONE or changes CAUSE, every host word but GETST is answered Faulted, and RESET clears FAULT and CAUSE. -/
def Obligations.FatalFaultLastsUntilReset : Prop :=
  ∀ s : State, s.FAULT = true → s.pc = 0x0000#16 → s.DONE = false →
    (∀ turn, turn ≠ .reset → ∃ t, takeTurn turn s = .next t ∧ t.FAULT = true ∧ t.pc = 0x0000#16 ∧ t.DONE = false ∧
      t.CAUSE = s.CAUSE ∧ t.LEN = s.LEN ∧ t.H = s.H) ∧
    (∀ opw, opw ∈ hostWords → opw ≠ 0x0300#16 → hostTransaction opw s = .next { s with response := some ⟨4#4, 0#32⟩ }) ∧
    (∃ t, takeTurn .reset s = .next t ∧ t.FAULT = false ∧ t.CAUSE = 0#4)

/-- 43_host_commands.md R171. -/
def Obligations.SetlenWritesTheLength : Prop :=
  encode .setlen = 0x0100#16 ∧ Instr.issuer .setlen = .host ∧
  (∀ s : State, s.FAULT = false → s.pc = 0#16 →
    exec .setlen s = .next { s with LEN := s.din, response := some ⟨0#4, 0#32⟩ }) ∧
  (∀ s : State, s.FAULT = true → exec .setlen s = .next { s with response := some ⟨4#4, 0#32⟩ }) ∧
  (∀ s : State, s.FAULT = false → s.pc ≠ 0#16 → exec .setlen s = .next { s with response := some ⟨2#4, 0#32⟩ }) ∧
  (∀ (w : OpWord) (s : State), w.toNat / 256 = 0x01 → w.toNat % 256 ≠ 0 →
    hostTransaction w s = .next { s with response := some ⟨1#4, 0#32⟩ })

/-- 43_host_commands.md R172. -/
def Obligations.StartBeginsARun : Prop :=
  encode .start = 0x0200#16 ∧ Instr.issuer .start = .host ∧
  (∀ s : State, s.FAULT = false → s.pc = 0#16 →
    exec .start s = .next { s with DONE := false, pc := 0x1000#16, response := some ⟨0#4, 0#32⟩ }) ∧
  (∀ s : State, s.FAULT = true → exec .start s = .next { s with response := some ⟨4#4, 0#32⟩ }) ∧
  (∀ s : State, s.FAULT = false → s.pc ≠ 0#16 → exec .start s = .next { s with response := some ⟨2#4, 0#32⟩ }) ∧
  (∀ (w : OpWord) (s : State), w.toNat / 256 = 0x02 → w.toNat % 256 ≠ 0 →
    hostTransaction w s = .next { s with response := some ⟨1#4, 0#32⟩ })

/-- 43_host_commands.md R173: in every state, no side effect, and only the four values in states that keep the invariants. -/
def Obligations.GetstReadsTheStatus : Prop :=
  encode .getst = 0x0300#16 ∧ Instr.issuer .getst = .host ∧
  (∀ s : State, ∃ st : Word, exec .getst s = .next { s with response := some ⟨0#4, st⟩ } ∧
    (st.toNat = s.CAUSE.toNat * 16 + s.FAULT.toNat * 4 + s.DONE.toNat * 2 + (if s.pc ≠ 0#16 then 1 else 0)) ∧
    (StateInv s → st = 0x00000000#32 ∨ st = 0x00000001#32 ∨ st = 0x00000002#32 ∨ st = 0x00000054#32)) ∧
  (∀ (w : OpWord) (s : State), w.toNat / 256 = 0x03 → w.toNat % 256 ≠ 0 →
    hostTransaction w s = .next { s with response := some ⟨1#4, 0#32⟩ })

/-- 43_host_commands.md R174. -/
def Obligations.GetwReadsADigestWord : Prop :=
  (∀ i : Fin 8, encode (.getw i) = 0x0400#16 + BitVec.ofNat 16 i.val ∧ (Instr.getw i).issuer = .host) ∧
  (∀ (i : Fin 8) (s : State), s.FAULT = false → s.DONE = true →
    exec (.getw i) s = .next { s with response := some ⟨0#4, s.H[i]⟩ }) ∧
  (∀ (i : Fin 8) (s : State), s.FAULT = true → exec (.getw i) s = .next { s with response := some ⟨4#4, 0#32⟩ }) ∧
  (∀ (i : Fin 8) (s : State), s.FAULT = false → s.DONE = false →
    exec (.getw i) s = .next { s with response := some ⟨3#4, 0#32⟩ }) ∧
  (∀ (w : OpWord) (s : State), w.toNat / 256 = 0x04 → 8 ≤ w.toNat % 256 →
    hostTransaction w s = .next { s with response := some ⟨1#4, 0#32⟩ })

/-- 43_host_commands.md R175, with the digest byte of 42_round_pipeline.md R149 as a number. -/
def Obligations.GetbReadsADigestByte : Prop :=
  (∀ j : Fin 32, encode (.getb j) = 0x0500#16 + BitVec.ofNat 16 j.val ∧ (Instr.getb j).issuer = .host) ∧
  (∀ (j : Fin 32) (s : State), s.FAULT = false → s.DONE = true → ∃ v : Word,
    exec (.getb j) s = .next { s with response := some ⟨0#4, v⟩ } ∧
    v.toNat = s.H[j.val / 4].toNat / 2 ^ (24 - 8 * (j.val % 4)) % 256) ∧
  (∀ (j : Fin 32) (s : State), s.FAULT = true → exec (.getb j) s = .next { s with response := some ⟨4#4, 0#32⟩ }) ∧
  (∀ (j : Fin 32) (s : State), s.FAULT = false → s.DONE = false →
    exec (.getb j) s = .next { s with response := some ⟨3#4, 0#32⟩ }) ∧
  (∀ (w : OpWord) (s : State), w.toNat / 256 = 0x05 → 32 ≤ w.toNat % 256 →
    hostTransaction w s = .next { s with response := some ⟨1#4, 0#32⟩ })

/-- 43_host_commands.md R176, with the nibble of 42_round_pipeline.md R150 as a number. The codes are ASCII, which the rule
itself marks as general knowledge (log entry 12). -/
def Obligations.GetxReadsADigestCharacter : Prop :=
  (∀ j : Fin 64, encode (.getx j) = 0x0600#16 + BitVec.ofNat 16 j.val ∧ (Instr.getx j).issuer = .host) ∧
  (∀ (j : Fin 64) (s : State), s.FAULT = false → s.DONE = true → ∃ v : Word,
    exec (.getx j) s = .next { s with response := some ⟨0#4, v⟩ } ∧
    (let n := s.H[j.val / 8].toNat / 2 ^ (28 - 4 * (j.val % 8)) % 16
     v.toNat = if n ≤ 9 then 0x30 + n else 0x61 + (n - 10))) ∧
  (∀ (j : Fin 64) (s : State), s.FAULT = true → exec (.getx j) s = .next { s with response := some ⟨4#4, 0#32⟩ }) ∧
  (∀ (j : Fin 64) (s : State), s.FAULT = false → s.DONE = false →
    exec (.getx j) s = .next { s with response := some ⟨3#4, 0#32⟩ }) ∧
  (∀ (w : OpWord) (s : State), w.toNat / 256 = 0x06 → 64 ≤ w.toNat % 256 →
    hostTransaction w s = .next { s with response := some ⟨1#4, 0#32⟩ })

/-- 40_framer.md R101, with the wrap of R107: FINIT completes for every length. -/
def Obligations.FinitComputesTheLengths : Prop :=
  encode .finit = 0x1000#16 ∧ Instr.issuer .finit = .sequencer ∧
  ∀ s : State, ∃ t, exec .finit s = .next t ∧
    t = { s with BITLEN := t.BITLEN, NBLK := t.NBLK, BI := 0#64, pc := 0x3000#16 } ∧
    t.BITLEN.toNat = s.LEN.toNat * 8 % 2 ^ 64 ∧ t.NBLK.toNat = (s.LEN.toNat + 8) / 64 + 1

/-- 40_framer.md R104, through FRAME (R103): FRAME completes when the bytes it reads are defined, writes nothing but BLK, BI and pc (and the
model's own free-value counter), and byte `j` of the block is PaddedByte of `64 * BI + j` by the four cases of R104, wherever
that lies below `PLEN = 64 * NBLK`; the cases are exclusive when NBLK is the block count of LEN. -/
def Obligations.FrameProducesTheNextBlock : Prop :=
  encode .frame = 0x1100#16 ∧ Instr.issuer .frame = .sequencer ∧
  ∀ s : State,
    (∀ p, 64 * s.BI.toNat ≤ p → p ≤ 64 * s.BI.toNat + 63 → p < s.LEN.toNat → ∃ b, s.msg.read p = some b) →
    ∃ t, exec .frame s = .next t ∧
      t = { s with BLK := t.BLK, BI := t.BI, freeCount := t.freeCount, pc := 0x2000#16 } ∧
      (s.BI.toNat < s.NBLK.toNat → t.BI.toNat = s.BI.toNat + 1) ∧
      ∀ (j : Nat) (h : j < 64), 64 * s.BI.toNat + j < 64 * s.NBLK.toNat →
        let p := 64 * s.BI.toNat + j
        (p < s.LEN.toNat → s.msg.read p = some t.BLK[j]) ∧
        (p = s.LEN.toNat → t.BLK[j] = 0x80#8) ∧
        (s.LEN.toNat < p → p + 8 < 64 * s.NBLK.toNat → t.BLK[j] = 0x00#8) ∧
        (s.LEN.toNat < p → 64 * s.NBLK.toNat ≤ p + 8 →
          t.BLK[j].toNat = s.BITLEN.toNat / 2 ^ (56 - 8 * (p + 8 - 64 * s.NBLK.toNat)) % 256) ∧
        (s.NBLK = blockCount s.LEN → s.LEN.toNat + 8 < 64 * s.NBLK.toNat)

/-- Where MSG has no byte the model is stuck, as 93_implementation_defined.md U3 asks (log entry 5): at the smallest such
offset of the block, since the reads are in ascending order (20_memory.md R65). -/
def Obligations.FrameStopsAtTheFirstUndefinedByte : Prop :=
  ∀ (s : State) (p : Nat), 64 * s.BI.toNat ≤ p → p ≤ 64 * s.BI.toNat + 63 → p < s.LEN.toNat → s.msg.read p = none →
    (∀ q, 64 * s.BI.toNat ≤ q → q < p → ∃ b, s.msg.read q = some b) →
    exec .frame s = .fault (.messageUndefined p)

/-- 20_memory.md R65: a FRAME depends on no byte of MSG but those at `64n .. 64n+63` below LEN. -/
def Obligations.FrameReadsOnlyItsOwnBytes : Prop :=
  ∀ (s : State) (m : Memory),
    (∀ p, 64 * s.BI.toNat ≤ p → p ≤ 64 * s.BI.toNat + 63 → p < s.LEN.toNat → m.read p = s.msg.read p) →
    (∀ t, exec .frame s = .next t → exec .frame { s with msg := m } = .next { t with msg := m }) ∧
    (∀ e, exec .frame s = .fault e → exec .frame { s with msg := m } = .fault e)

/-- 41_schedule_expander.md R121. -/
def Obligations.WloadAssemblesAWord : Prop :=
  (∀ (i : Fin 16) (s : State), encode (.wload i) = 0x2000#16 + BitVec.ofNat 16 i.val ∧
    (Instr.wload i).issuer = .sequencer ∧
    ∃ t, exec (.wload i) s = .next t ∧
      t = { s with W := t.W, pc := if i.val < 15 then 0x2000#16 + BitVec.ofNat 16 (i.val + 1) else 0x2110#16 } ∧
      t.W[i.val].toNat = s.BLK[4 * i.val].toNat * 2 ^ 24 + s.BLK[4 * i.val + 1].toNat * 2 ^ 16 +
        s.BLK[4 * i.val + 2].toNat * 2 ^ 8 + s.BLK[4 * i.val + 3].toNat ∧
      ∀ (j : Nat) (h : j < 64), j ≠ i.val → t.W[j] = s.W[j]) ∧
  (∀ w : OpWord, w.toNat / 64 = 0x2000 / 64 → 16 ≤ w.toNat % 64 → decode w = .error .indexReserved)

/-- 41_schedule_expander.md R123. -/
def Obligations.WexpExpandsAWord : Prop :=
  (∀ (i : Fin 64) (s : State), 16 ≤ i.val → encode (.wexp i) = 0x2100#16 + BitVec.ofNat 16 i.val ∧
    (Instr.wexp i).issuer = .sequencer ∧
    ∃ t, exec (.wexp i) s = .next t ∧
      t = { s with W := t.W, pc := if i.val < 63 then 0x2100#16 + BitVec.ofNat 16 (i.val + 1) else 0x3100#16 } ∧
      (let x := s.W[i.val - 15]
       let y := s.W[i.val - 2]
       let s0 := rotr x 7 ^^^ rotr x 18 ^^^ (x >>> 3)
       let s1 := rotr y 17 ^^^ rotr y 19 ^^^ (y >>> 10)
       t.W[i.val].toNat = (s.W[i.val - 16].toNat + s0.toNat + s.W[i.val - 7].toNat + s1.toNat) % 2 ^ 32) ∧
      ∀ (j : Nat) (h : j < 64), j ≠ i.val → t.W[j] = s.W[j]) ∧
  (∀ w : OpWord, w.toNat / 64 = 0x2100 / 64 → w.toNat % 64 ≤ 15 → decode w = .error .indexReserved)

/-- 42_round_pipeline.md R141. (What the table IV holds is said in Obligations.TablesAreRootsOfPrimes.) -/
def Obligations.HinitLoadsTheInitialState : Prop :=
  encode .hinit = 0x3000#16 ∧ Instr.issuer .hinit = .sequencer ∧
  ∀ s : State, ∃ t, exec .hinit s = .next t ∧ t = { s with H := t.H, pc := 0x1100#16 } ∧
    ∀ (j : Nat) (h : j < 8), t.H[j] = Config.IV[j]

/-- 42_round_pipeline.md R142. -/
def Obligations.SeedCopiesTheState : Prop :=
  encode .seed = 0x3100#16 ∧ Instr.issuer .seed = .sequencer ∧
  ∀ s : State, ∃ t, exec .seed s = .next t ∧ t = { s with V := t.V, pc := 0x3200#16 } ∧
    ∀ (j : Nat) (h : j < 8), t.V[j] = s.H[j]

/-- 42_round_pipeline.md R146. -/
def Obligations.RoundRotatesTheVariables : Prop :=
  ∀ (i : Fin 64) (s : State), encode (.round i) = 0x3200#16 + BitVec.ofNat 16 i.val ∧
    (Instr.round i).issuer = .sequencer ∧
    ∃ t, exec (.round i) s = .next t ∧
      t = { s with V := t.V, pc := if i.val < 63 then 0x3200#16 + BitVec.ofNat 16 (i.val + 1) else 0x3300#16 } ∧
      (let a := s.V[0]
       let b := s.V[1]
       let c := s.V[2]
       let d := s.V[3]
       let e := s.V[4]
       let f := s.V[5]
       let g := s.V[6]
       let h := s.V[7]
       let S1 := rotr e 6 ^^^ rotr e 11 ^^^ rotr e 25
       let choice := (e &&& f) ^^^ (~~~e &&& g)
       let t1 := (h.toNat + S1.toNat + choice.toNat + Config.K[i].toNat + s.W[i].toNat) % 2 ^ 32
       let S0 := rotr a 2 ^^^ rotr a 13 ^^^ rotr a 22
       let majority := (a &&& b) ^^^ (a &&& c) ^^^ (b &&& c)
       let t2 := (S0.toNat + majority.toNat) % 2 ^ 32
       t.V[7] = g ∧ t.V[6] = f ∧ t.V[5] = e ∧ t.V[4].toNat = (d.toNat + t1) % 2 ^ 32 ∧
       t.V[3] = c ∧ t.V[2] = b ∧ t.V[1] = a ∧ t.V[0].toNat = (t1 + t2) % 2 ^ 32)

/-- 42_round_pipeline.md R147. -/
def Obligations.FoldAddsAndDecides : Prop :=
  encode .fold = 0x3300#16 ∧ Instr.issuer .fold = .sequencer ∧
  ∀ s : State, ∃ t, exec .fold s = .next t ∧
    t = { s with H := t.H, pc := if s.BI.toNat < s.NBLK.toNat then 0x1100#16 else 0x3400#16 } ∧
    ∀ (j : Nat) (h : j < 8), t.H[j].toNat = (s.H[j].toNat + s.V[j].toNat) % 2 ^ 32

/-- 42_round_pipeline.md R148: DONE is set, BUSY reads 0, H is not touched; and H cannot change while `DONE = 1`. -/
def Obligations.EmitDeclaresTheDigest : Prop :=
  encode .emit = 0x3400#16 ∧ Instr.issuer .emit = .sequencer ∧
  ∀ s : State, ∃ t, exec .emit s = .next t ∧ t = { s with DONE := true, pc := 0x0000#16 } ∧ t.busy = false ∧
    (StateInv s → s.pc = 0x3400#16 → t.status = 0x00000002#32) ∧
    (∀ u, StateInv s → s.DONE = true → step s = .next u → u.DONE = true → u.H = s.H)

/-- The bits of a right rotation (00_scope.md R10). -/
def Obligations.RotationMovesBits : Prop :=
  ∀ (x : Word) (n j : Nat), n < 32 → j < 32 → (rotr x n).getLsbD j = x.getLsbD ((j + n) % 32)

/-- 41_schedule_expander.md R122, bit by bit: two rotations and a logical shift. -/
def Obligations.SmallSigmaBits : Prop :=
  ∀ (x : Word) (j : Nat), j < 32 →
    (ssig0 x).getLsbD j =
      ((x.getLsbD ((j + 7) % 32) ^^ x.getLsbD ((j + 18) % 32)) ^^ (decide (j + 3 < 32) && x.getLsbD (j + 3))) ∧
    (ssig1 x).getLsbD j =
      ((x.getLsbD ((j + 17) % 32) ^^ x.getLsbD ((j + 19) % 32)) ^^ (decide (j + 10 < 32) && x.getLsbD (j + 10)))

/-- 42_round_pipeline.md R143, bit by bit: three rotations each. -/
def Obligations.BigSigmaBits : Prop :=
  ∀ (x : Word) (j : Nat), j < 32 →
    (bsig0 x).getLsbD j =
      ((x.getLsbD ((j + 2) % 32) ^^ x.getLsbD ((j + 13) % 32)) ^^ x.getLsbD ((j + 22) % 32)) ∧
    (bsig1 x).getLsbD j =
      ((x.getLsbD ((j + 6) % 32) ^^ x.getLsbD ((j + 11) % 32)) ^^ x.getLsbD ((j + 25) % 32))

/-- 42_round_pipeline.md R144: each result bit is the bit of `f` where the bit of `e` is 1 and the bit of `g` where it is 0. -/
def Obligations.ChoiceSelectsBits : Prop :=
  ∀ (e f g : Word) (j : Nat), j < 32 →
    (ch e f g).getLsbD j = if e.getLsbD j = true then f.getLsbD j else g.getLsbD j

/-- 42_round_pipeline.md R145: each result bit is the majority of the three input bits. -/
def Obligations.MajorityOfBits : Prop :=
  ∀ (a b c : Word) (j : Nat), j < 32 →
    ((maj a b c).getLsbD j = true ↔
      2 ≤ (a.getLsbD j).toNat + (b.getLsbD j).toNat + (c.getLsbD j).toNat)

/-- 42_round_pipeline.md R149: the 32 digest bytes are the eight words, most significant byte first. -/
def Obligations.DigestBytesAreBigEndian : Prop :=
  ∀ (H : Vector Word 8),
    (∀ j : Fin 32, (digestByte H j).toNat = H[j.val / 4].toNat / 2 ^ (24 - 8 * (j.val % 4)) % 256) ∧
    (∀ w : Fin 8, H[w].toNat =
      (digestByte H (Fin.ofNat 32 (4 * w.val))).toNat * 2 ^ 24 +
      (digestByte H (Fin.ofNat 32 (4 * w.val + 1))).toNat * 2 ^ 16 +
      (digestByte H (Fin.ofNat 32 (4 * w.val + 2))).toNat * 2 ^ 8 +
      (digestByte H (Fin.ofNat 32 (4 * w.val + 3))).toNat)

/-- 42_round_pipeline.md R150: nibble `j`; characters `2m` and `2m+1` are the high and low nibble of digest byte `m`; the code
of a nibble's character is that of the character the string `0123456789abcdef` has there (ASCII: log entry 12). -/
def Obligations.DigestCharactersAreNibbles : Prop :=
  (∀ (H : Vector Word 8) (j : Fin 64),
    (digestNibble H j).toNat = H[j.val / 8].toNat / 2 ^ (28 - 4 * (j.val % 8)) % 16) ∧
  (∀ (H : Vector Word 8) (m : Fin 32), (digestByte H m).toNat =
    (digestNibble H (Fin.ofNat 64 (2 * m.val))).toNat * 16 + (digestNibble H (Fin.ofNat 64 (2 * m.val + 1))).toNat) ∧
  (∀ n : BitVec 4, some (hexChar n).toNat = ("0123456789abcdef".toList[n.toNat]?).map Char.toNat)

/-- 20_memory.md R68, the length field: byte 0 is the most significant. -/
def Obligations.LengthFieldIsBigEndian : Prop :=
  ∀ v : DWord, v.toNat = ((List.range 8).map fun j => (bigEndianByte v j).toNat * 2 ^ (8 * (7 - j))).sum

/-- 10_state.md R33 and R34: `K[i]` and `IV[j]` are the first 32 bits of the fractional parts of the cube roots of the primes up
to 311 and of the square roots of the primes up to 19. The rules themselves mark the tables as general knowledge (log entry
12). -/
def Obligations.TablesAreRootsOfPrimes : Prop :=
  (∃ primes : List Nat, primes.length = 64 ∧ primes.Pairwise (· < ·) ∧ (∀ p, p ∈ primes ↔ p.Prime ∧ p ≤ 311) ∧
    ∀ (i : Nat) (h : i < 64), ∃ p whole, primes[i]? = some p ∧
      (whole * 2 ^ 32 + Config.K[i].toNat) ^ 3 ≤ p * 2 ^ 96 ∧
      p * 2 ^ 96 < (whole * 2 ^ 32 + Config.K[i].toNat + 1) ^ 3) ∧
  (∃ primes : List Nat, primes.length = 8 ∧ primes.Pairwise (· < ·) ∧ (∀ p, p ∈ primes ↔ p.Prime ∧ p ≤ 19) ∧
    ∀ (j : Nat) (h : j < 8), ∃ p whole, primes[j]? = some p ∧
      (whole * 2 ^ 32 + Config.IV[j].toNat) ^ 2 ≤ p * 2 ^ 64 ∧
      p * 2 ^ 64 < (whole * 2 ^ 32 + Config.IV[j].toNat + 1) ^ 2)

/-- 40_framer.md R102: the block count, the number `k` of zero bytes (the smallest that makes the total a multiple of 64), and
where the `0x80` byte falls. `LEN < PLEN - 8` always, so the cases of R104 are exclusive. -/
def Obligations.BlockCountAndPadding : Prop :=
  ∀ len : DWord,
    let L := len.toNat
    let N := (blockCount len).toNat
    let k := zeroCount L
    N = (L + 8) / 64 + 1 ∧ N = (L + 9 + 63) / 64 ∧ N = blocksFor L ∧
    64 * N = L + 1 + k + 8 ∧ k ≤ 63 ∧ ((k : Int) - (55 - (L : Int))) % 64 = 0 ∧
    (∀ k', k' < k → (L + 1 + k' + 8) % 64 ≠ 0) ∧
    L + 8 < 64 * N ∧
    (L % 64 ≤ 55 → N = L / 64 + 1) ∧ (56 ≤ L % 64 → N = L / 64 + 2)

/-- The Padded Message of 40_framer.md R100: the Message first, then `0x80`, zero bytes, and in the last 8 bytes the length in
bits; the total is a multiple of 64. -/
def Obligations.PaddedMessageShape : Prop :=
  ∀ m : List Byte,
    (padMessage m).length = 64 * blocksFor m.length ∧
    (∀ p, p < m.length → (padMessage m)[p]? = m[p]?) ∧
    (padMessage m)[m.length]? = some 0x80#8 ∧
    (∀ p, m.length < p → p + 8 < (padMessage m).length → (padMessage m)[p]? = some 0x00#8) ∧
    (((padMessage m).drop ((padMessage m).length - 8)).foldl (fun v b => v * 256 + b.toNat) 0 =
      m.length * 8 % 2 ^ 64)

/-- 30_encoding.md R88: the successor of every position, the halted one included, and START as the one way out of it. Every
sequencer operation but FRAME completes in every state. -/
def Obligations.SuccessorOfEveryPosition : Prop :=
  (∀ s t : State, legalPc s.pc = true → sequencerStep s = .next t →
    t.pc = successorOf s.pc (decide (s.BI.toNat < s.NBLK.toNat))) ∧
  (∀ s : State, legalPc s.pc = true → s.pc ≠ 0x1100#16 → ∃ t, sequencerStep s = .next t) ∧
  (∀ (opw : OpWord) (s t : State), s.pc = 0x0000#16 → hostTransaction opw s = .next t → t.pc ≠ 0x0000#16 →
    opw = 0x0200#16 ∧ t.pc = 0x1000#16)

/-- 10_state.md R46, the `w` columns: a register outside the write set of an operation is unchanged by it. -/
def Obligations.WriteSetsOfTheOperations : Prop :=
  ∀ (i : Instr) (s t : State), i.wf = true → exec i s = .next t →
    (∀ r, r ∉ writeSet i → Reg.same r s t) ∧ t.schedule = s.schedule ∧
    (i.issuer = .sequencer → t.response = s.response)

/-- 10_state.md R46, the `r` columns (and 93_implementation_defined.md U9 for `din`): a register outside the read set of an
operation has no influence on any other register or on the response, whether the operation writes it or not. -/
def Obligations.ReadSetsOfTheOperations : Prop :=
  ∀ (i : Instr) (r : Reg) (s t : State), i.wf = true → r ∉ readSet i → r.differOnlyAt s t →
    r.outcomesDifferOnlyAt (exec i s) (exec i t)

/-- 20_memory.md R62: no turn of the host port, of the sequencer or RESET changes a byte of MSG. -/
def Obligations.CoreNeverWritesMessage : Prop :=
  ∀ (turn : Turn) (s t : State), (∀ p b, turn ≠ .writeMsg p b) → takeTurn turn s = .next t →
    ∀ a, t.msg.read a = s.msg.read a

/-- 60_exceptions.md R203 and 43_host_commands.md R177: during a run a host transaction changes nothing but the response. -/
def Obligations.HostCannotDisturbARun : Prop :=
  ∀ (opw : OpWord) (s : State), s.pc ≠ 0x0000#16 →
    ∃ r, hostTransaction opw s = .next { s with response := some r }

/-- 10_state.md R42 and 60_exceptions.md R204: what a host transaction returns depends on nothing but BUSY, DONE, FAULT, CAUSE
and, once DONE = 1, on H. -/
def Obligations.HiddenStateStaysHidden : Prop :=
  ∀ (opw : OpWord) (s t s' t' : State), s.busy = t.busy → s.DONE = t.DONE → s.FAULT = t.FAULT → s.CAUSE = t.CAUSE →
    (s.DONE = true → s.H = t.H) → hostTransaction opw s = .next s' → hostTransaction opw t = .next t' →
    s'.response = t'.response

/-- 10_state.md R44: the invariants hold after reset. -/
def Obligations.InvariantHoldsAtReset : Prop := StateInv State.reset

/-- 10_state.md R44: every step keeps the invariants, whatever turn it takes. -/
def Obligations.InvariantKeptByEveryStep : Prop :=
  ∀ s t : State, StateInv s → step s = .next t → StateInv t

/-- 60_exceptions.md R207: InvariantFault is unreachable. -/
def Obligations.InvariantFaultIsUnreachable : Prop :=
  ∀ s t : State, StateInv s → s.FAULT = false → step s = .next t → t.FAULT = false

/-- 10_state.md R37: the layout of STATUS, and its legal values. -/
def Obligations.StatusLayoutAndValues : Prop :=
  ∀ s : State,
    (s.status.getLsbD 0 = decide (s.pc ≠ 0)) ∧ (s.status.getLsbD 1 = s.DONE) ∧ (s.status.getLsbD 2 = s.FAULT) ∧
    (s.status.getLsbD 3 = false) ∧ (s.status.extractLsb 7 4 = s.CAUSE) ∧ (s.status.extractLsb 31 8 = 0#24) ∧
    (StateInv s → s.status = 0x00000000#32 ∨ s.status = 0x00000001#32 ∨ s.status = 0x00000002#32 ∨ s.status = 0x00000054#32)

/-- 40_framer.md R106: in a run, FRAME leaves in BLK the block number `BI` of the Padded Message. -/
def Obligations.FramesDeliverThePaddedMessage : Prop :=
  ∀ (s : State) (m : List Byte), StateInv s → s.pc = 0x1100#16 → MessageIs s m →
    ∃ t, exec .frame s = .next t ∧ t.BLK = messageBlock m s.BI.toNat ∧ t.BI.toNat = s.BI.toNat + 1 ∧ t.pc = 0x2000#16

/-- 41_schedule_expander.md R124: the sixteen WLOADs and forty-eight WEXPs leave in W the schedule of BLK, whatever W held, and
touch nothing else. That no turn of the host comes between is the empty schedule of the model (log entry 3). -/
def Obligations.ScheduleIsAFunctionOfTheBlock : Prop :=
  ∀ s : State, s.pc = 0x2000#16 → s.schedule = [] →
    ∃ t, Host.Core.run Sys2Proof.core 64 s = .next t ∧ t = { s with W := t.W, pc := 0x3100#16 } ∧
      t.W.toList = scheduleOf s.BLK

/-- 42_round_pipeline.md R152, one block: SEED, the sixty-four ROUNDs and FOLD. That no turn of the host comes
between is the empty schedule of the model (log entry 3). -/
def Obligations.RoundsAndFoldCompress : Prop :=
  ∀ (s : State) (B : Vector Byte 64), s.pc = 0x3100#16 → s.schedule = [] → s.W.toList = scheduleOf B →
    ∃ t, Host.Core.run Sys2Proof.core 66 s = .next t ∧ t = { s with H := t.H, V := t.V, pc := t.pc } ∧
      t.H = compress s.H B ∧ t.pc = if s.BI.toNat < s.NBLK.toNat then 0x1100#16 else 0x3400#16

/-- 42_round_pipeline.md R152 with 30_encoding.md R90: an accepted START and the 131 * NBLK + 3 sequencer operations of the run
leave the digest of the message in H and STATUS = 2. From 2^61 bytes on the length field wraps (40_framer.md R107) and the
digest of R152 is no longer SHA-256's. That the START stands on the schedule is the model's form (log entry 3). -/
def Obligations.RunComputesTheDigest : Prop :=
  ∀ (s : State) (m : List Byte) (d : DWord), s.pc = 0x0000#16 → s.FAULT = false → s.CAUSE = 0#4 → MessageIs s m →
    s.schedule = [.hostOp 0x0200#16 d] →
    ∃ t, Host.Core.run Sys2Proof.core (1 + (131 * blocksFor m.length + 3)) s = .next t ∧
      t.H = digestOf m ∧ t.pc = 0x0000#16 ∧ t.DONE = true ∧ t.FAULT = false ∧ t.status = 0x00000002#32 ∧
      t.NBLK.toNat = blocksFor m.length ∧ t.BI = t.NBLK ∧ t.LEN = s.LEN ∧ t.msg = s.msg

/-- 70_reset_and_hazards.md R233 with 42_round_pipeline.md R152: whatever host transactions come between the sequencer's
131 * NBLK + 3 steps, the digest is the same. The interleaving is the schedule of the model (log entry 3). -/
def Obligations.RunUnderAnyInterleaving : Prop :=
  ∀ (s : State) (m : List Byte), s.pc = 0x1000#16 → s.FAULT = false → MessageIs s m →
    (∀ turn ∈ s.schedule, turn.harmless = true) →
    s.schedule.count .sequencer = 131 * blocksFor m.length + 3 → s.schedule.getLast? = some .sequencer →
    ∃ t, Host.Core.run Sys2Proof.core s.schedule.length s = .next t ∧ t.H = digestOf m ∧ t.pc = 0x0000#16 ∧
      t.DONE = true ∧ t.FAULT = false ∧ t.schedule = []

/-- 42_round_pipeline.md R151 with 10_state.md R45: two runs over the same bytes give the same digest, whatever every other
register held before (those that hold no value after reset, log entry 1, among them). That each START stands on the schedule
is the model's form (log entry 3). -/
def Obligations.DigestDependsOnTheMessageAlone : Prop :=
  ∀ (s t : State) (d e : DWord), s.pc = 0x0000#16 → t.pc = 0x0000#16 → s.FAULT = false → t.FAULT = false →
    s.LEN = t.LEN → (∀ p, p < s.LEN.toNat → s.msg.read p = t.msg.read p) → MessageDefined s →
    s.schedule = [.hostOp 0x0200#16 d] → t.schedule = [.hostOp 0x0200#16 e] →
    ∃ s' t', Host.Core.run Sys2Proof.core (1 + (131 * (blockCount s.LEN).toNat + 3)) s = .next s' ∧
      Host.Core.run Sys2Proof.core (1 + (131 * (blockCount t.LEN).toNat + 3)) t = .next t' ∧
      s'.DONE = true ∧ t'.DONE = true ∧ s'.H = t'.H

/-- 70_reset_and_hazards.md R234: from every position of a run the sequencer, left alone, ends it with DONE = 1 within
131 * NBLK + 3 steps. That the sequencer is left alone is the empty schedule of the model (log entry 3). -/
def Obligations.RunEndsFromAnywhere : Prop :=
  ∀ s : State, StateInv s → s.pc ≠ 0x0000#16 → s.schedule = [] → MessageDefined s →
    ∃ n t, n ≤ 131 * (blockCount s.LEN).toNat + 3 ∧ Host.Core.run Sys2Proof.core n s = .next t ∧
      t.pc = 0x0000#16 ∧ t.DONE = true ∧ t.FAULT = false
end

