-- ==== Sys2Proof/Laws/Decode.lean ====
section
/-! SUPPORT. The fields of an operation word, as numbers and of a word made from its fields; and what each shape of operand
decodes to. -/

namespace Sys2Proof

theorem opcField_toNat (w : OpWord) : (opcField w).toNat = w.toNat / 256 := by
  have := w.isLt
  simp only [opcField, BitVec.extractLsb'_toNat, Nat.shiftRight_eq_div_pow]
  omega

theorem zField_toNat (w : OpWord) : (zField w).toNat = w.toNat / 64 % 4 := by
  simp only [zField, BitVec.extractLsb'_toNat, Nat.shiftRight_eq_div_pow]

theorem idxField_toNat (w : OpWord) : (idxField w).toNat = w.toNat % 64 := by
  simp only [idxField, BitVec.extractLsb'_toNat, Nat.shiftRight_zero]

theorem mkWord_toNat (opc : BitVec 8) (idx : BitVec 6) : (mkWord opc idx).toNat = opc.toNat * 256 + idx.toNat := by
  have h := idx.isLt
  simp only [mkWord, BitVec.toNat_append, BitVec.toNat_ofNat]
  rw [← Nat.shiftLeft_add_eq_or_of_lt (by simpa using h), ← Nat.shiftLeft_add_eq_or_of_lt (by decide)]
  simp only [Nat.shiftLeft_eq]
  omega

@[simp] theorem opcField_mkWord (opc : BitVec 8) (idx : BitVec 6) : opcField (mkWord opc idx) = opc := by
  apply BitVec.eq_of_toNat_eq
  have := idx.isLt
  rw [opcField_toNat, mkWord_toNat]
  omega

@[simp] theorem zField_mkWord (opc : BitVec 8) (idx : BitVec 6) : zField (mkWord opc idx) = 0#2 := by
  apply BitVec.eq_of_toNat_eq
  have := idx.isLt
  have h0 : (0#2).toNat = 0 := rfl
  rw [zField_toNat, mkWord_toNat, h0]
  omega

@[simp] theorem idxField_mkWord (opc : BitVec 8) (idx : BitVec 6) : idxField (mkWord opc idx) = idx := by
  apply BitVec.eq_of_toNat_eq
  have := idx.isLt
  rw [idxField_toNat, mkWord_toNat]
  omega

/-- A word whose `z` is 0 is made from its two other fields. -/
theorem mkWord_fields (w : OpWord) (hz : zField w = 0#2) : mkWord (opcField w) (idxField w) = w := by
  apply BitVec.eq_of_toNat_eq
  have hz' : w.toNat / 64 % 4 = 0 := by rw [← zField_toNat, hz]; rfl
  rw [mkWord_toNat, opcField_toNat, idxField_toNat]
  omega

/-- Decoding a word made from its fields is the opcode map on those fields. -/
theorem decode_mkWord (opc : BitVec 8) (idx : BitVec 6) : decode (mkWord opc idx) = decodeOpc opc idx := by
  simp [decode]

/-- A legal word has `z = 0` and its fields decode to the operation. -/
theorem decode_ok {w : OpWord} {i : Instr} (h : decode w = .ok i) :
    zField w = 0#2 ∧ decodeOpc (opcField w) (idxField w) = .ok i := by
  unfold decode at h
  split at h
  · cases h
  · rename_i hz
    exact ⟨not_not.mp hz, h⟩

theorem decodePlain_ok {i i' : Instr} {idx : BitVec 6} (h : decodePlain i idx = .ok i') : idx = 0#6 ∧ i' = i := by
  unfold decodePlain at h
  split at h
  · rename_i hidx
    exact ⟨hidx, (Except.ok.inj h).symm⟩
  · cases h

theorem decodeBelow_ok {n : Nat} {f : Fin n → Instr} {idx : BitVec 6} {i' : Instr}
    (h : decodeBelow n f idx = .ok i') : ∃ k : Fin n, k.val = idx.toNat ∧ i' = f k := by
  unfold decodeBelow at h
  split at h
  · rename_i hidx
    exact ⟨⟨idx.toNat, hidx⟩, rfl, (Except.ok.inj h).symm⟩
  · cases h

theorem decodeWexp_ok {idx : BitVec 6} {i' : Instr} (h : decodeWexp idx = .ok i') :
    ∃ k : Fin 64, k.val = idx.toNat ∧ 16 ≤ k.val ∧ i' = .wexp k := by
  unfold decodeWexp at h
  split at h
  · rename_i hidx
    exact ⟨⟨idx.toNat, idx.isLt⟩, rfl, hidx, (Except.ok.inj h).symm⟩
  · cases h

theorem ite_eq_cases {α : Type} {c : Prop} [Decidable c] {a b x : α} (h : (if c then a else b) = x) :
    (c ∧ a = x) ∨ (¬c ∧ b = x) := by
  by_cases hc : c
  · exact .inl ⟨hc, by rwa [if_pos hc] at h⟩
  · exact .inr ⟨hc, by rwa [if_neg hc] at h⟩

/-- The opcode map, inverted: which opcode and index each operation is decoded from. -/
theorem decodeOpc_ok {opc : BitVec 8} {idx : BitVec 6} {i : Instr} (h : decodeOpc opc idx = .ok i) :
    mkWord opc idx = encode i ∧ i.wf = true := by
  have plain : ∀ {o : BitVec 8} {j : Instr}, encode j = mkWord o 0#6 → j.wf = true → opc = o → decodePlain j idx = .ok i →
      mkWord opc idx = encode i ∧ i.wf = true := by
    intro o j hj hwf ho hd
    obtain ⟨rfl, rfl⟩ := decodePlain_ok hd
    exact ⟨by rw [ho, hj], hwf⟩
  have below : ∀ {o : BitVec 8} {n : Nat} {f : Fin n → Instr},
      (∀ k : Fin n, encode (f k) = mkWord o (BitVec.ofNat 6 k.val)) → (∀ k, (f k).wf = true) → opc = o →
      decodeBelow n f idx = .ok i → mkWord opc idx = encode i ∧ i.wf = true := by
    intro o n f hf hwf ho hd
    obtain ⟨k, hk, rfl⟩ := decodeBelow_ok hd
    refine ⟨?_, hwf k⟩
    rw [ho, hf, hk, BitVec.ofNat_toNat, BitVec.setWidth_eq]
  unfold decodeOpc at h
  rcases ite_eq_cases h with ⟨ho, h⟩ | ⟨-, h⟩
  · exact plain rfl rfl ho h
  rcases ite_eq_cases h with ⟨ho, h⟩ | ⟨-, h⟩
  · exact plain rfl rfl ho h
  rcases ite_eq_cases h with ⟨ho, h⟩ | ⟨-, h⟩
  · exact plain rfl rfl ho h
  rcases ite_eq_cases h with ⟨ho, h⟩ | ⟨-, h⟩
  · exact below (fun _ => rfl) (fun _ => rfl) ho h
  rcases ite_eq_cases h with ⟨ho, h⟩ | ⟨-, h⟩
  · exact below (fun _ => rfl) (fun _ => rfl) ho h
  rcases ite_eq_cases h with ⟨ho, h⟩ | ⟨-, h⟩
  · exact below (fun _ => rfl) (fun _ => rfl) ho h
  rcases ite_eq_cases h with ⟨ho, h⟩ | ⟨-, h⟩
  · exact plain rfl rfl ho h
  rcases ite_eq_cases h with ⟨ho, h⟩ | ⟨-, h⟩
  · exact plain rfl rfl ho h
  rcases ite_eq_cases h with ⟨ho, h⟩ | ⟨-, h⟩
  · exact below (fun _ => rfl) (fun _ => rfl) ho h
  rcases ite_eq_cases h with ⟨ho, h⟩ | ⟨-, h⟩
  · obtain ⟨k, hk, hk16, rfl⟩ := decodeWexp_ok h
    refine ⟨?_, by simpa [Instr.wf] using hk16⟩
    rw [ho, encode, hk, BitVec.ofNat_toNat, BitVec.setWidth_eq]
  rcases ite_eq_cases h with ⟨ho, h⟩ | ⟨-, h⟩
  · exact plain rfl rfl ho h
  rcases ite_eq_cases h with ⟨ho, h⟩ | ⟨-, h⟩
  · exact plain rfl rfl ho h
  rcases ite_eq_cases h with ⟨ho, h⟩ | ⟨-, h⟩
  · exact below (fun _ => rfl) (fun _ => rfl) ho h
  rcases ite_eq_cases h with ⟨ho, h⟩ | ⟨-, h⟩
  · exact plain rfl rfl ho h
  rcases ite_eq_cases h with ⟨ho, h⟩ | ⟨-, h⟩
  · exact plain rfl rfl ho h
  rcases ite_eq_cases h with ⟨-, h⟩ | ⟨-, h⟩
  · cases h
  · cases h

end Sys2Proof
end

