-- ==== Sys2Proof/Laws/Digest.lean ====
section
/-! SUPPORT. The reference digest, one word and one round at a time. -/

namespace Sys2Proof.Machine

/-- Growing by one more word appends the recurrence's word. -/
theorem growSchedule_succ (k : Nat) (w : List Word) :
    growSchedule (k + 1) w = growSchedule k w ++ [nextScheduleWord (growSchedule k w)] := by
  induction k generalizing w with
  | zero => rfl
  | succ k ih =>
    rw [growSchedule, ih]
    rfl

theorem growSchedule_length (k : Nat) (w : List Word) : (growSchedule k w).length = w.length + k := by
  induction k with
  | zero => rfl
  | succ k ih =>
    rw [growSchedule_succ, List.length_append, ih, List.length_singleton, Nat.add_assoc]

/-- One more round after a list of rounds. -/
theorem roundsOver_append_single (l : List (Word × Word)) (k w : Word) (V : Vector Word 8) :
    roundsOver (l ++ [(k, w)]) V = roundVars (roundsOver l V) k w := by
  induction l generalizing V with
  | nil => rfl
  | cons x l ih =>
    obtain ⟨a, b⟩ := x
    exact ih _

/-- Writing schedule word `i` extends the prefix written so far. -/
theorem take_succ_set (W : Vector Word 64) (i : Nat) (hi : i < 64) (x : Word) :
    (W.set i x).toList.take (i + 1) = W.toList.take i ++ [x] := by
  apply List.ext_getElem
  · simp
    omega
  · intro n h1 h2
    simp at h1 h2
    by_cases hn : n = i
    · subst hn
      simp
    · rw [List.getElem_append_left (by simp; omega)]
      simp [Ne.symm hn]

end Sys2Proof.Machine
end

