-- ==== Sys2Proof/Laws/Framer.lean ====
section
/-! SUPPORT. What PaddedByte, the ascending fill of a block and FRAME can do. -/

namespace Sys2Proof.Machine

/-- PaddedByte fails in one way: it reads MSG at its own offset, below LEN, and no byte is there. -/
theorem paddedByte_error {s : State} {free p e : Nat} (h : paddedByte s free p = .error e) :
    e = p ∧ p < s.LEN.toNat ∧ s.msg.read p = none := by
  unfold paddedByte at h
  split at h
  · rename_i hp
    split at h
    · cases h
    · rename_i hr
      exact ⟨(Except.error.inj h).symm, hp, hr⟩
  · split at h
    · cases h
    · split at h
      · cases h
      · split at h <;> cases h

/-- PaddedByte below LEN is the byte MSG has there. -/
theorem paddedByte_message {s : State} {free p : Nat} {b : Byte} (hp : p < s.LEN.toNat)
    (hr : s.msg.read p = some b) : paddedByte s free p = .ok b := by
  simp [paddedByte, hp, hr]

/-- PaddedByte is defined wherever MSG is, or where it does not look at MSG. -/
theorem paddedByte_defined {s : State} (free : Nat) {p : Nat}
    (h : p < s.LEN.toNat → ∃ b, s.msg.read p = some b) : ∃ b, paddedByte s free p = .ok b := by
  cases hb : paddedByte s free p with
  | ok b => exact ⟨b, rfl⟩
  | error e =>
    obtain ⟨-, hp, hr⟩ := paddedByte_error hb
    obtain ⟨b, hb'⟩ := h hp
    rw [hr] at hb'
    cases hb'

/-- PaddedByte depends on MSG at its own offset only. -/
theorem paddedByte_congr {s s' : State} {free p : Nat} (hlen : s'.LEN = s.LEN) (hbit : s'.BITLEN = s.BITLEN)
    (hblk : s'.NBLK = s.NBLK) (h : p < s.LEN.toNat → s'.msg.read p = s.msg.read p) :
    paddedByte s' free p = paddedByte s free p := by
  unfold paddedByte
  rw [hlen, hbit, hblk]
  split
  · rename_i hp
    rw [h hp]
  · rfl

theorem frameFill_succ (s : State) (n k : Nat) (blk : Vector Byte 64) :
    frameFill s n (k + 1) blk =
      match frameFill s n k blk with
      | .ok blk' =>
        match paddedByte s (s.freeCount + k) (64 * n + k) with
        | .ok b => .ok (blk'.setIfInBounds k b)
        | .error p => .error p
      | .error p => .error p := rfl

/-- What a fill that succeeds has written, and what it has left alone. -/
theorem frameFill_ok {s : State} {n k : Nat} {blk blk' : Vector Byte 64} (h : frameFill s n k blk = .ok blk') :
    ∀ (j : Nat) (hj : j < 64),
      (j < k → paddedByte s (s.freeCount + j) (64 * n + j) = .ok blk'[j]) ∧ (k ≤ j → blk'[j] = blk[j]) := by
  induction k generalizing blk' with
  | zero =>
    intro j hj
    cases h
    exact ⟨fun hlt => absurd hlt (Nat.not_lt_zero j), fun _ => rfl⟩
  | succ k ih =>
    rw [frameFill_succ] at h
    split at h
    · rename_i blk1 h1
      split at h
      · rename_i b hb
        cases h
        intro j hj
        obtain ⟨ih1, ih2⟩ := ih h1 j hj
        rw [Vector.getElem_setIfInBounds hj]
        by_cases hkj : k = j
        · subst hkj
          exact ⟨fun _ => by rw [if_pos rfl]; exact hb, fun hle => absurd hle (by omega)⟩
        · rw [if_neg hkj]
          exact ⟨fun hlt => ih1 (by omega), fun hle => ih2 (by omega)⟩
      · cases h
    · cases h

/-- A fill that succeeds has read every one of its bytes. -/
theorem frameFill_reads {s : State} {n k : Nat} {blk blk' : Vector Byte 64} (h : frameFill s n k blk = .ok blk') :
    ∀ i, i < k → ∃ b, paddedByte s (s.freeCount + i) (64 * n + i) = .ok b := by
  induction k generalizing blk' with
  | zero => exact fun i hi => absurd hi (Nat.not_lt_zero i)
  | succ k ih =>
    rw [frameFill_succ] at h
    split at h
    · rename_i blk1 h1
      split at h
      · rename_i b hb
        intro i hi
        rcases Nat.lt_succ_iff_lt_or_eq.mp hi with hi' | rfl
        · exact ih h1 i hi'
        · exact ⟨b, hb⟩
      · cases h
    · cases h

/-- A fill that fails does so at the first byte that cannot be read. -/
theorem frameFill_error {s : State} {n k e : Nat} {blk : Vector Byte 64} (h : frameFill s n k blk = .error e) :
    ∃ j, j < k ∧ e = 64 * n + j ∧ e < s.LEN.toNat ∧ s.msg.read e = none ∧
      ∀ i, i < j → ∃ b, paddedByte s (s.freeCount + i) (64 * n + i) = .ok b := by
  induction k generalizing e with
  | zero => cases h
  | succ k ih =>
    rw [frameFill_succ] at h
    split at h
    · rename_i blk1 h1
      split at h
      · cases h
      · rename_i p hp
        cases h
        obtain ⟨rfl, hlt, hr⟩ := paddedByte_error hp
        exact ⟨k, by omega, rfl, hlt, hr, frameFill_reads h1⟩
    · rename_i p hp
      cases h
      obtain ⟨j, hj, rest⟩ := ih hp
      exact ⟨j, by omega, rest⟩

/-- A fill whose bytes are all defined succeeds. -/
theorem frameFill_defined {s : State} {n : Nat} (k : Nat) (blk : Vector Byte 64)
    (h : ∀ j, j < k → 64 * n + j < s.LEN.toNat → ∃ b, s.msg.read (64 * n + j) = some b) :
    ∃ blk', frameFill s n k blk = .ok blk' := by
  cases hf : frameFill s n k blk with
  | ok blk' => exact ⟨blk', rfl⟩
  | error e =>
    obtain ⟨j, hj, rfl, hlt, hr, -⟩ := frameFill_error hf
    obtain ⟨b, hb⟩ := h j hj hlt
    rw [hr] at hb
    cases hb

/-- FRAME answering a next state: it has advanced, changed nothing but BLK, BI, pc and the free-value counter, and byte `j` of
BLK is PaddedByte of `64 * BI + j`. -/
theorem execFrame_next {s t : State} (h : execFrame s = .next t) :
    (∃ blk, t = { s with BLK := blk, BI := BitVec.ofNat 64 (s.BI.toNat + 1), freeCount := s.freeCount + 64, pc := 0x2000#16 }) ∧
    ∀ (j : Nat) (hj : j < 64), paddedByte s (s.freeCount + j) (64 * s.BI.toNat + j) = .ok t.BLK[j] := by
  unfold execFrame at h
  split at h
  · rename_i blk hf
    cases h
    exact ⟨⟨blk, rfl⟩, fun j hj => (frameFill_ok hf j hj).1 hj⟩
  · cases h

/-- FRAME stops in one way: at the first offset of its block below LEN where MSG has no byte. -/
theorem execFrame_fault {s : State} {e : Fault} (h : execFrame s = .fault e) :
    ∃ j, j < 64 ∧ e = .messageUndefined (64 * s.BI.toNat + j) ∧ 64 * s.BI.toNat + j < s.LEN.toNat ∧
      s.msg.read (64 * s.BI.toNat + j) = none ∧
      ∀ i, i < j → ∃ b, paddedByte s (s.freeCount + i) (64 * s.BI.toNat + i) = .ok b := by
  unfold execFrame at h
  split at h
  · cases h
  · rename_i p hf
    cases h
    obtain ⟨j, hj, rfl, hlt, hr, hi⟩ := frameFill_error hf
    exact ⟨j, hj, rfl, hlt, hr, hi⟩

/-- FRAME completes when every byte of its block below LEN is defined. -/
theorem execFrame_completes {s : State}
    (h : ∀ j, j < 64 → 64 * s.BI.toNat + j < s.LEN.toNat → ∃ b, s.msg.read (64 * s.BI.toNat + j) = some b) :
    ∃ t, execFrame s = .next t := by
  obtain ⟨blk, hb⟩ := frameFill_defined (s := s) (n := s.BI.toNat) 64 s.BLK h
  unfold execFrame
  rw [hb]
  exact ⟨_, rfl⟩

end Sys2Proof.Machine
end

