-- ==== Sys2Proof/Laws/State.lean ====
section
/-! SUPPORT. One lemma per field per named update of the state, true by rfl: no later proof unfolds a record update. -/

namespace Sys2Proof.Machine

section

variable (s : State) (target : OpWord)

@[simp] theorem State.goto_H : (s.goto target).H = s.H := rfl
@[simp] theorem State.goto_V : (s.goto target).V = s.V := rfl
@[simp] theorem State.goto_W : (s.goto target).W = s.W := rfl
@[simp] theorem State.goto_BLK : (s.goto target).BLK = s.BLK := rfl
@[simp] theorem State.goto_LEN : (s.goto target).LEN = s.LEN := rfl
@[simp] theorem State.goto_BITLEN : (s.goto target).BITLEN = s.BITLEN := rfl
@[simp] theorem State.goto_NBLK : (s.goto target).NBLK = s.NBLK := rfl
@[simp] theorem State.goto_BI : (s.goto target).BI = s.BI := rfl
@[simp] theorem State.goto_pc : (s.goto target).pc = target := rfl
@[simp] theorem State.goto_DONE : (s.goto target).DONE = s.DONE := rfl
@[simp] theorem State.goto_FAULT : (s.goto target).FAULT = s.FAULT := rfl
@[simp] theorem State.goto_CAUSE : (s.goto target).CAUSE = s.CAUSE := rfl
@[simp] theorem State.goto_msg : (s.goto target).msg = s.msg := rfl
@[simp] theorem State.goto_din : (s.goto target).din = s.din := rfl
@[simp] theorem State.goto_response : (s.goto target).response = s.response := rfl
@[simp] theorem State.goto_schedule : (s.goto target).schedule = s.schedule := rfl
@[simp] theorem State.goto_freeCount : (s.goto target).freeCount = s.freeCount := rfl

end

section

variable (s : State) (v : Word)

@[simp] theorem State.answer_H : (s.answer v).H = s.H := rfl
@[simp] theorem State.answer_V : (s.answer v).V = s.V := rfl
@[simp] theorem State.answer_W : (s.answer v).W = s.W := rfl
@[simp] theorem State.answer_BLK : (s.answer v).BLK = s.BLK := rfl
@[simp] theorem State.answer_LEN : (s.answer v).LEN = s.LEN := rfl
@[simp] theorem State.answer_BITLEN : (s.answer v).BITLEN = s.BITLEN := rfl
@[simp] theorem State.answer_NBLK : (s.answer v).NBLK = s.NBLK := rfl
@[simp] theorem State.answer_BI : (s.answer v).BI = s.BI := rfl
@[simp] theorem State.answer_pc : (s.answer v).pc = s.pc := rfl
@[simp] theorem State.answer_DONE : (s.answer v).DONE = s.DONE := rfl
@[simp] theorem State.answer_FAULT : (s.answer v).FAULT = s.FAULT := rfl
@[simp] theorem State.answer_CAUSE : (s.answer v).CAUSE = s.CAUSE := rfl
@[simp] theorem State.answer_msg : (s.answer v).msg = s.msg := rfl
@[simp] theorem State.answer_din : (s.answer v).din = s.din := rfl
@[simp] theorem State.answer_response : (s.answer v).response = some ⟨0#4, v⟩ := rfl
@[simp] theorem State.answer_schedule : (s.answer v).schedule = s.schedule := rfl
@[simp] theorem State.answer_freeCount : (s.answer v).freeCount = s.freeCount := rfl

end

section

variable (s : State) (c : Cause)

@[simp] theorem State.reject_H : (s.reject c).H = s.H := rfl
@[simp] theorem State.reject_V : (s.reject c).V = s.V := rfl
@[simp] theorem State.reject_W : (s.reject c).W = s.W := rfl
@[simp] theorem State.reject_BLK : (s.reject c).BLK = s.BLK := rfl
@[simp] theorem State.reject_LEN : (s.reject c).LEN = s.LEN := rfl
@[simp] theorem State.reject_BITLEN : (s.reject c).BITLEN = s.BITLEN := rfl
@[simp] theorem State.reject_NBLK : (s.reject c).NBLK = s.NBLK := rfl
@[simp] theorem State.reject_BI : (s.reject c).BI = s.BI := rfl
@[simp] theorem State.reject_pc : (s.reject c).pc = s.pc := rfl
@[simp] theorem State.reject_DONE : (s.reject c).DONE = s.DONE := rfl
@[simp] theorem State.reject_FAULT : (s.reject c).FAULT = s.FAULT := rfl
@[simp] theorem State.reject_CAUSE : (s.reject c).CAUSE = s.CAUSE := rfl
@[simp] theorem State.reject_msg : (s.reject c).msg = s.msg := rfl
@[simp] theorem State.reject_din : (s.reject c).din = s.din := rfl
@[simp] theorem State.reject_response : (s.reject c).response = some ⟨c.code, 0#32⟩ := rfl
@[simp] theorem State.reject_schedule : (s.reject c).schedule = s.schedule := rfl
@[simp] theorem State.reject_freeCount : (s.reject c).freeCount = s.freeCount := rfl

end

section

variable (s : State)

@[simp] theorem State.takeInvariantFault_H : (s.takeInvariantFault).H = s.H := rfl
@[simp] theorem State.takeInvariantFault_V : (s.takeInvariantFault).V = s.V := rfl
@[simp] theorem State.takeInvariantFault_W : (s.takeInvariantFault).W = s.W := rfl
@[simp] theorem State.takeInvariantFault_BLK : (s.takeInvariantFault).BLK = s.BLK := rfl
@[simp] theorem State.takeInvariantFault_LEN : (s.takeInvariantFault).LEN = s.LEN := rfl
@[simp] theorem State.takeInvariantFault_BITLEN : (s.takeInvariantFault).BITLEN = s.BITLEN := rfl
@[simp] theorem State.takeInvariantFault_NBLK : (s.takeInvariantFault).NBLK = s.NBLK := rfl
@[simp] theorem State.takeInvariantFault_BI : (s.takeInvariantFault).BI = s.BI := rfl
@[simp] theorem State.takeInvariantFault_pc : (s.takeInvariantFault).pc = 0x0000#16 := rfl
@[simp] theorem State.takeInvariantFault_DONE : (s.takeInvariantFault).DONE = false := rfl
@[simp] theorem State.takeInvariantFault_FAULT : (s.takeInvariantFault).FAULT = true := rfl
@[simp] theorem State.takeInvariantFault_CAUSE : (s.takeInvariantFault).CAUSE = 5#4 := rfl
@[simp] theorem State.takeInvariantFault_msg : (s.takeInvariantFault).msg = s.msg := rfl
@[simp] theorem State.takeInvariantFault_din : (s.takeInvariantFault).din = s.din := rfl
@[simp] theorem State.takeInvariantFault_response : (s.takeInvariantFault).response = s.response := rfl
@[simp] theorem State.takeInvariantFault_schedule : (s.takeInvariantFault).schedule = s.schedule := rfl
@[simp] theorem State.takeInvariantFault_freeCount : (s.takeInvariantFault).freeCount = s.freeCount := rfl

end

section

variable (s : State)

@[simp] theorem State.resetEvent_H : (s.resetEvent).H = State.reset.H := rfl
@[simp] theorem State.resetEvent_V : (s.resetEvent).V = State.reset.V := rfl
@[simp] theorem State.resetEvent_W : (s.resetEvent).W = State.reset.W := rfl
@[simp] theorem State.resetEvent_BLK : (s.resetEvent).BLK = State.reset.BLK := rfl
@[simp] theorem State.resetEvent_LEN : (s.resetEvent).LEN = 0#64 := rfl
@[simp] theorem State.resetEvent_BITLEN : (s.resetEvent).BITLEN = State.reset.BITLEN := rfl
@[simp] theorem State.resetEvent_NBLK : (s.resetEvent).NBLK = State.reset.NBLK := rfl
@[simp] theorem State.resetEvent_BI : (s.resetEvent).BI = State.reset.BI := rfl
@[simp] theorem State.resetEvent_pc : (s.resetEvent).pc = 0x0000#16 := rfl
@[simp] theorem State.resetEvent_DONE : (s.resetEvent).DONE = false := rfl
@[simp] theorem State.resetEvent_FAULT : (s.resetEvent).FAULT = false := rfl
@[simp] theorem State.resetEvent_CAUSE : (s.resetEvent).CAUSE = 0#4 := rfl
@[simp] theorem State.resetEvent_msg : (s.resetEvent).msg = s.msg := rfl
@[simp] theorem State.resetEvent_din : (s.resetEvent).din = State.reset.din := rfl
@[simp] theorem State.resetEvent_response : (s.resetEvent).response = none := rfl
@[simp] theorem State.resetEvent_schedule : (s.resetEvent).schedule = s.schedule := rfl
@[simp] theorem State.resetEvent_freeCount : (s.resetEvent).freeCount = s.freeCount := rfl

end

section

variable (s : State) (offset : DWord) (b : Byte)

@[simp] theorem State.hostWrite_H : (s.hostWrite offset b).H = s.H := rfl
@[simp] theorem State.hostWrite_V : (s.hostWrite offset b).V = s.V := rfl
@[simp] theorem State.hostWrite_W : (s.hostWrite offset b).W = s.W := rfl
@[simp] theorem State.hostWrite_BLK : (s.hostWrite offset b).BLK = s.BLK := rfl
@[simp] theorem State.hostWrite_LEN : (s.hostWrite offset b).LEN = s.LEN := rfl
@[simp] theorem State.hostWrite_BITLEN : (s.hostWrite offset b).BITLEN = s.BITLEN := rfl
@[simp] theorem State.hostWrite_NBLK : (s.hostWrite offset b).NBLK = s.NBLK := rfl
@[simp] theorem State.hostWrite_BI : (s.hostWrite offset b).BI = s.BI := rfl
@[simp] theorem State.hostWrite_pc : (s.hostWrite offset b).pc = s.pc := rfl
@[simp] theorem State.hostWrite_DONE : (s.hostWrite offset b).DONE = s.DONE := rfl
@[simp] theorem State.hostWrite_FAULT : (s.hostWrite offset b).FAULT = s.FAULT := rfl
@[simp] theorem State.hostWrite_CAUSE : (s.hostWrite offset b).CAUSE = s.CAUSE := rfl
@[simp] theorem State.hostWrite_msg : (s.hostWrite offset b).msg = s.msg.write offset.toNat b := rfl
@[simp] theorem State.hostWrite_din : (s.hostWrite offset b).din = s.din := rfl
@[simp] theorem State.hostWrite_response : (s.hostWrite offset b).response = s.response := rfl
@[simp] theorem State.hostWrite_schedule : (s.hostWrite offset b).schedule = s.schedule := rfl
@[simp] theorem State.hostWrite_freeCount : (s.hostWrite offset b).freeCount = s.freeCount := rfl

end

end Sys2Proof.Machine
end

