-- ==== Sys2Proof/Laws/Exec.lean ====
section
/-! SUPPORT. What the shared host checks, an operation, a turn and a step can do, said once. -/

namespace Sys2Proof.Machine

/-- The checks of SETLEN and START: one of three outcomes. -/
theorem State.whenIdle_cases (s performed : State) :
    (s.FAULT = true ∧ s.whenIdle performed = s.reject .faulted) ∨
    (s.FAULT = false ∧ s.pc ≠ 0#16 ∧ s.whenIdle performed = s.reject .busy) ∨
    (s.FAULT = false ∧ s.pc = 0#16 ∧ s.whenIdle performed = performed) := by
  unfold State.whenIdle
  cases s.FAULT <;> by_cases hpc : s.pc = 0#16 <;> simp [hpc]

/-- The checks of GETW, GETB and GETX: one of three outcomes. -/
theorem State.whenDone_cases (s : State) (v : Word) :
    (s.FAULT = true ∧ s.whenDone v = s.reject .faulted) ∨
    (s.FAULT = false ∧ s.DONE = false ∧ s.whenDone v = s.reject .notDone) ∨
    (s.FAULT = false ∧ s.DONE = true ∧ s.whenDone v = s.answer v) := by
  unfold State.whenDone
  cases s.FAULT <;> cases s.DONE <;> simp

/-- The digest reads change nothing but the response. -/
theorem State.whenDone_eq (s : State) (v : Word) : ∃ r, s.whenDone v = { s with response := some r } := by
  rcases s.whenDone_cases v with ⟨-, h⟩ | ⟨-, -, h⟩ | ⟨-, -, h⟩ <;> exact ⟨_, h⟩

/-- Every operation but FRAME answers a next state. -/
theorem exec_completes (i : Instr) (s : State) (h : i ≠ .frame) : ∃ t, exec i s = .next t := by
  cases i with
  | frame => exact absurd rfl h
  | wexp k =>
    simp only [exec, execWexp]
    split <;> exact ⟨_, rfl⟩
  | setlen => exact ⟨_, rfl⟩
  | start => exact ⟨_, rfl⟩
  | getst => exact ⟨_, rfl⟩
  | getw j => exact ⟨_, rfl⟩
  | getb j => exact ⟨_, rfl⟩
  | getx j => exact ⟨_, rfl⟩
  | finit => exact ⟨_, rfl⟩
  | wload k => exact ⟨_, rfl⟩
  | hinit => exact ⟨_, rfl⟩
  | seed => exact ⟨_, rfl⟩
  | round k => exact ⟨_, rfl⟩
  | fold => exact ⟨_, rfl⟩
  | emit => exact ⟨_, rfl⟩

/-- No operation is refused. -/
theorem exec_ne_refused (i : Instr) (s : State) (r : Refusal) : exec i s ≠ .refused r := by
  by_cases h : i = .frame
  · subst h
    intro h
    change execFrame s = .refused r at h
    unfold execFrame at h
    split at h <;> cases h
  · obtain ⟨t, ht⟩ := exec_completes i s h
    rw [ht]
    simp

/-- A host transaction is IllegalOp, or it is the operation of a host word. -/
theorem hostTransaction_cases (opw : OpWord) (s : State) :
    ((∀ i, decode opw = .ok i → i.issuer = .sequencer) ∧ hostTransaction opw s = .next (s.reject .illegalOp)) ∨
    (∃ i, decode opw = .ok i ∧ i.issuer = .host ∧ hostTransaction opw s = exec i s) := by
  unfold hostTransaction
  cases hd : decode opw with
  | error e => exact .inl ⟨(fun i hi => nomatch hi), rfl⟩
  | ok i =>
    cases hi : i.issuer with
    | host => exact .inr ⟨i, rfl, hi, by simp [hi]⟩
    | sequencer => exact .inl ⟨fun i' hi' => by cases hi'; exact hi, by simp [hi]⟩

/-- A host operation on the port runs. -/
theorem hostTransaction_host {opw : OpWord} {i : Instr} (s : State) (hd : decode opw = .ok i) (hi : i.issuer = .host) :
    hostTransaction opw s = exec i s := by simp [hostTransaction, hd, hi]

/-- The host operation that a state meets changes at most LEN, DONE, pc and the response, and only when the core is halted and
not faulted. -/
theorem exec_host_cases {i : Instr} (s : State) (hi : i.issuer = .host) :
    (∃ r, exec i s = .next { s with response := some r }) ∨
    (s.FAULT = false ∧ s.pc = 0#16 ∧ i = .setlen ∧ exec i s = .next { s with LEN := s.din, response := some ⟨0#4, 0#32⟩ }) ∨
    (s.FAULT = false ∧ s.pc = 0#16 ∧ i = .start ∧
      exec i s = .next { s with DONE := false, pc := 0x1000#16, response := some ⟨0#4, 0#32⟩ }) := by
  have reads : ∀ v, ∃ r, (Host.Outcome.next (s.whenDone v) : Host.Outcome State Fault Refusal) =
      .next { s with response := some r } := by
    intro v
    obtain ⟨r, hr⟩ := s.whenDone_eq v
    exact ⟨r, by rw [hr]⟩
  cases i with
  | setlen =>
    rcases s.whenIdle_cases ({ s with LEN := s.din }.answer 0#32) with ⟨-, h⟩ | ⟨-, -, h⟩ | ⟨hf, hp, h⟩
    · exact .inl ⟨_, by rw [exec, execSetlen, h]; rfl⟩
    · exact .inl ⟨_, by rw [exec, execSetlen, h]; rfl⟩
    · exact .inr (.inl ⟨hf, hp, rfl, by rw [exec, execSetlen, h]; rfl⟩)
  | start =>
    rcases s.whenIdle_cases (({ s with DONE := false }.goto 0x1000#16).answer 0#32) with ⟨-, h⟩ | ⟨-, -, h⟩ | ⟨hf, hp, h⟩
    · exact .inl ⟨_, by rw [exec, execStart, h]; rfl⟩
    · exact .inl ⟨_, by rw [exec, execStart, h]; rfl⟩
    · exact .inr (.inr ⟨hf, hp, rfl, by rw [exec, execStart, h]; rfl⟩)
  | getst => exact .inl ⟨_, rfl⟩
  | getw j => exact .inl (reads _)
  | getb j => exact .inl (reads _)
  | getx j => exact .inl (reads _)
  | _ => simp [Instr.issuer] at hi

/-- A sequencer step: halted, InvariantFault, or the operation in `pc`. -/
theorem sequencerStep_cases (s : State) :
    (s.pc = 0#16 ∧ sequencerStep s = .next s) ∨
    (s.pc ≠ 0#16 ∧ (∀ i, decode s.pc = .ok i → i.issuer = .host) ∧ sequencerStep s = .next s.takeInvariantFault) ∨
    (s.pc ≠ 0#16 ∧ ∃ i, decode s.pc = .ok i ∧ i.issuer = .sequencer ∧ sequencerStep s = exec i s) := by
  unfold sequencerStep
  by_cases hpc : s.pc = 0#16
  · exact .inl ⟨hpc, by rw [if_pos hpc]⟩
  · rw [if_neg hpc]
    cases hd : decode s.pc with
    | error e => exact .inr (.inl ⟨hpc, (fun i hi => nomatch hi), rfl⟩)
    | ok i =>
      cases hi : i.issuer with
      | host => exact .inr (.inl ⟨hpc, fun i' hi' => by cases hi'; exact hi, by simp [hi]⟩)
      | sequencer => exact .inr (.inr ⟨hpc, i, rfl, hi, by simp [hi]⟩)

/-- The operation in `pc` runs. -/
theorem sequencerStep_of_decode {s : State} {i : Instr} (hd : decode s.pc = .ok i) (hi : i.issuer = .sequencer) :
    sequencerStep s = exec i s := by
  have hpc : s.pc ≠ 0#16 := by
    intro h0
    rw [h0] at hd
    have : decode 0#16 = .error .functionReserved := by decide
    rw [this] at hd
    cases hd
  simp [sequencerStep, hpc, hd, hi]

/-- A step takes the first turn of the schedule, or lets the sequencer go on. -/
theorem step_cases (s : State) :
    (s.schedule = [] ∧ step s = sequencerStep s) ∨
    (∃ turn rest, s.schedule = turn :: rest ∧ step s = takeTurn turn { s with schedule := rest }) := by
  unfold step nextTurn
  cases hs : s.schedule with
  | nil => exact .inl ⟨rfl, by simp⟩
  | cons turn rest => exact .inr ⟨turn, rest, rfl, by simp⟩

theorem step_of_empty {s : State} (h : s.schedule = []) : step s = sequencerStep s := by
  simp [step, nextTurn, h]

theorem step_of_turn {s : State} {turn : Turn} {rest : List Turn} (h : s.schedule = turn :: rest) :
    step s = takeTurn turn { s with schedule := rest } := by
  simp [step, nextTurn, h]

end Sys2Proof.Machine
end

