-- ==== Sys2Proof/Laws/Memory.lean ====
section
/-! SUPPORT. The laws of the message space: a read after a write, the other offsets, the canonical form, and that the form is
canonical (equal contents are equal lists). -/

namespace Sys2Proof.Machine

@[simp] theorem Memory.read_nil (p : Nat) : Memory.read [] p = none := rfl

theorem Memory.read_cons (q : Nat) (c : Byte) (m : Memory) (p : Nat) :
    Memory.read ((q, c) :: m) p = if p = q then some c else Memory.read m p := rfl

theorem Memory.write_cons (q : Nat) (c : Byte) (m : Memory) (p : Nat) (b : Byte) :
    Memory.write ((q, c) :: m) p b =
      if p < q then (p, b) :: (q, c) :: m else if p = q then (p, b) :: m else (q, c) :: Memory.write m p b := rfl

theorem Memory.read_write (m : Memory) (p : Nat) (b : Byte) (a : Nat) :
    (m.write p b).read a = if a = p then some b else m.read a := by
  induction m with
  | nil => simp [Memory.write, Memory.read_cons]
  | cons head m ih =>
    obtain ⟨q, c⟩ := head
    rw [Memory.write_cons]
    split
    · simp only [Memory.read_cons]
    · split
      · rename_i hpq
        simp only [Memory.read_cons, hpq]
        split <;> rfl
      · rename_i hpq
        simp only [Memory.read_cons, ih]
        split
        · rename_i haq
          rw [if_neg (by omega)]
        · rfl

/-- A read after a write to the same offset gives the byte written. -/
@[simp] theorem Memory.read_write_same (m : Memory) (p : Nat) (b : Byte) : (m.write p b).read p = some b := by
  simp [Memory.read_write]

/-- A write leaves every other offset alone. -/
theorem Memory.read_write_other (m : Memory) {p a : Nat} (b : Byte) (h : a ≠ p) : (m.write p b).read a = m.read a := by
  simp [Memory.read_write, h]

theorem Memory.risesFrom_cons (lo q : Nat) (c : Byte) (m : Memory) :
    Memory.risesFrom lo ((q, c) :: m) = true ↔ lo ≤ q ∧ q < addressSpace ∧ Memory.risesFrom (q + 1) m = true := by
  simp [Memory.risesFrom, and_assoc]

theorem Memory.write_risesFrom (m : Memory) (lo p : Nat) (b : Byte) (hlo : lo ≤ p) (hp : p < addressSpace)
    (h : Memory.risesFrom lo m = true) : Memory.risesFrom lo (m.write p b) = true := by
  induction m generalizing lo with
  | nil => simpa [Memory.write, Memory.risesFrom] using ⟨hlo, hp⟩
  | cons head m ih =>
    obtain ⟨q, c⟩ := head
    rw [Memory.risesFrom_cons] at h
    rw [Memory.write_cons]
    split
    · simp only [Memory.risesFrom_cons]
      exact ⟨hlo, hp, by omega, h.2.1, h.2.2⟩
    · split
      · rename_i hpq
        rw [Memory.risesFrom_cons]
        exact ⟨hlo, hp, hpq ▸ h.2.2⟩
      · rw [Memory.risesFrom_cons]
        exact ⟨h.1, h.2.1, ih (q + 1) (by omega) h.2.2⟩

/-- A write keeps the canonical form. -/
theorem Memory.write_wf (m : Memory) (p : Nat) (b : Byte) (hp : p < addressSpace) (h : m.wf = true) :
    (m.write p b).wf = true := Memory.write_risesFrom m 0 p b (Nat.zero_le p) hp h

/-- The host's write to MSG keeps the canonical form. -/
theorem State.hostWrite_wf (s : State) (offset : DWord) (b : Byte) (h : s.msg.wf = true) :
    (s.hostWrite offset b).msg.wf = true := Memory.write_wf s.msg offset.toNat b offset.isLt h

/-- Reset memory has the canonical form. -/
theorem State.reset_msg_wf : State.reset.msg.wf = true := rfl

theorem Memory.read_below (m : Memory) (lo p : Nat) (h : Memory.risesFrom lo m = true) (hp : p < lo) :
    m.read p = none := by
  induction m generalizing lo with
  | nil => rfl
  | cons head m ih =>
    obtain ⟨q, c⟩ := head
    rw [Memory.risesFrom_cons] at h
    rw [Memory.read_cons, if_neg (by omega)]
    exact ih (q + 1) h.2.2 (by omega)

theorem Memory.ext_risesFrom (m n : Memory) (lo : Nat) (hm : Memory.risesFrom lo m = true)
    (hn : Memory.risesFrom lo n = true) (h : ∀ p, m.read p = n.read p) : m = n := by
  induction m generalizing n lo with
  | nil =>
    cases n with
    | nil => rfl
    | cons head n =>
      obtain ⟨q, c⟩ := head
      have := h q
      simp [Memory.read_cons] at this
  | cons head m ih =>
    obtain ⟨q, c⟩ := head
    rw [Memory.risesFrom_cons] at hm
    cases n with
    | nil =>
      have := h q
      simp [Memory.read_cons] at this
    | cons head' n =>
      obtain ⟨q', c'⟩ := head'
      rw [Memory.risesFrom_cons] at hn
      have hq : q = q' := by
        have h1 := h q
        have h2 := h q'
        rw [Memory.read_cons, if_pos rfl, Memory.read_cons] at h1
        rw [Memory.read_cons, Memory.read_cons, if_pos rfl] at h2
        by_contra hne
        rw [if_neg hne] at h1
        rw [if_neg (Ne.symm hne)] at h2
        rcases Nat.lt_or_gt_of_ne hne with hlt | hlt
        · rw [Memory.read_below n (q' + 1) q hn.2.2 (by omega)] at h1
          simp at h1
        · rw [Memory.read_below m (q + 1) q' hm.2.2 (by omega)] at h2
          simp at h2
      subst hq
      have hc : c = c' := by
        have := h q
        simpa [Memory.read_cons] using this
      subst hc
      rw [ih n (q + 1) hm.2.2 hn.2.2]
      intro p
      by_cases hp : p = q
      · subst hp
        rw [Memory.read_below m (p + 1) p hm.2.2 (by omega), Memory.read_below n (p + 1) p hn.2.2 (by omega)]
      · have := h p
        simpa [Memory.read_cons, hp] using this

/-- Equal contents are equal data. -/
theorem Memory.ext_of_wf (m n : Memory) (hm : m.wf = true) (hn : n.wf = true) (h : ∀ p, m.read p = n.read p) : m = n :=
  Memory.ext_risesFrom m n 0 hm hn h

end Sys2Proof.Machine
end

