-- ==== Sys2Proof/Laws/Operands.lean ====
section
/-! SUPPORT. The functions of words and bytes as numbers. -/

namespace Sys2Proof.Machine

theorem append_toNat {n m : Nat} (a : BitVec n) (b : BitVec m) : (a ++ b).toNat = a.toNat * 2 ^ m + b.toNat := by
  rw [BitVec.toNat_append, ← Nat.shiftLeft_add_eq_or_of_lt b.isLt, Nat.shiftLeft_eq]

theorem bigEndianWord_toNat (b0 b1 b2 b3 : Byte) :
    (bigEndianWord b0 b1 b2 b3).toNat = b0.toNat * 2 ^ 24 + b1.toNat * 2 ^ 16 + b2.toNat * 2 ^ 8 + b3.toNat := by
  have h : (bigEndianWord b0 b1 b2 b3).toNat = ((b0 ++ b1) ++ b2 ++ b3).toNat := rfl
  rw [h, append_toNat, append_toNat, append_toNat]
  omega

theorem bigEndianByte_toNat (v : DWord) (j : Nat) :
    (bigEndianByte v j).toNat = v.toNat / 2 ^ (56 - 8 * j) % 256 := by
  rw [bigEndianByte, BitVec.extractLsb'_toNat, Nat.shiftRight_eq_div_pow]

theorem digestByte_toNat (H : Vector Word 8) (j : Fin 32) :
    (digestByte H j).toNat = H[j.val / 4].toNat / 2 ^ (24 - 8 * (j.val % 4)) % 256 := by
  rw [digestByte, BitVec.extractLsb'_toNat, Nat.shiftRight_eq_div_pow]

theorem digestNibble_toNat (H : Vector Word 8) (j : Fin 64) :
    (digestNibble H j).toNat = H[j.val / 8].toNat / 2 ^ (28 - 4 * (j.val % 8)) % 16 := by
  rw [digestNibble, BitVec.extractLsb'_toNat, Nat.shiftRight_eq_div_pow]

theorem hexChar_toNat (n : BitVec 4) :
    (hexChar n).toNat = if n.toNat ≤ 9 then 0x30 + n.toNat else 0x61 + (n.toNat - 10) := by
  revert n
  decide

theorem bitLength_toNat (len : DWord) : (bitLength len).toNat = len.toNat * 8 % 2 ^ 64 := BitVec.toNat_ofNat _ _

/-- No length overflows the block counter. -/
theorem blockCount_toNat (len : DWord) : (blockCount len).toNat = (len.toNat + 8) / 64 + 1 := by
  have := len.isLt
  rw [blockCount, BitVec.toNat_ofNat, Nat.mod_eq_of_lt (by omega)]

theorem State.status_toNat (s : State) :
    s.status.toNat = s.CAUSE.toNat * 16 + s.FAULT.toNat * 4 + s.DONE.toNat * 2 + s.busy.toNat := by
  have h : s.status.toNat = (s.CAUSE ++ 0#1 ++ BitVec.ofBool s.FAULT ++ BitVec.ofBool s.DONE ++ BitVec.ofBool s.busy).toNat := by
    have hlt := (s.CAUSE ++ 0#1 ++ BitVec.ofBool s.FAULT ++ BitVec.ofBool s.DONE ++ BitVec.ofBool s.busy).isLt
    rw [State.status, BitVec.zeroExtend, BitVec.toNat_setWidth, Nat.mod_eq_of_lt (by omega)]
  rw [h, append_toNat, append_toNat, append_toNat, append_toNat, BitVec.toNat_ofBool, BitVec.toNat_ofBool,
    BitVec.toNat_ofBool]
  have h0 : (0#1).toNat = 0 := rfl
  omega

theorem addLanes_getElem (H V : Vector Word 8) (j : Nat) (h : j < 8) : (addLanes H V)[j] = H[j] + V[j] := by
  simp [addLanes]

/-- The successor of an indexed operation (30_encoding.md R88), by cases. -/
theorem nextPosition_of_lt {base after : OpWord} {i last : Nat} (h : i < last) :
    nextPosition base i last after = base + BitVec.ofNat 16 (i + 1) := if_pos h

theorem nextPosition_last {base after : OpWord} (last : Nat) : nextPosition base last last after = after :=
  if_neg (Nat.lt_irrefl last)

end Sys2Proof.Machine
end

