-- ==== Sys2Proof/Laws/PerInstr.lean ====
section
/-! SUPPORT. One family of facts about the operations as syntax, one lemma an operation: the unit field of the word says who
may issue the operation, and the field `z` is 0 (30_encoding.md R80, R81). -/

namespace Sys2Proof.Laws.IssuerUnit

/-- Unit `0x0` belongs to the host port, the others to the sequencer; `z = 00`. -/
def Statement (i : Instr) : Prop := hostUnit (encode i) = decide (i.issuer = .host) ∧ zField (encode i) = 0#2

/-- The unit of a word built from its fields is the high half of its opcode. -/
theorem hostUnit_mkWord (opc : BitVec 8) (idx : BitVec 6) : hostUnit (mkWord opc idx) = decide (opc.toNat < 16) := by
  have h : ((mkWord opc idx).extractLsb' 12 4 = 0#4) ↔ opc.toNat < 16 := by
    rw [← BitVec.toNat_inj, BitVec.extractLsb'_toNat, mkWord_toNat, Nat.shiftRight_eq_div_pow]
    have := idx.isLt
    have := opc.isLt
    have h0 : (0#4).toNat = 0 := rfl
    rw [h0]
    omega
  simp only [hostUnit, h]

theorem of_word {i : Instr} (opc : BitVec 8) (idx : BitVec 6) (he : encode i = mkWord opc idx)
    (hi : decide (opc.toNat < 16) = decide (i.issuer = .host)) : Statement i :=
  ⟨by rw [he, hostUnit_mkWord, hi], by rw [he, zField_mkWord]⟩

theorem setlen : Statement .setlen := of_word 0x01#8 _ rfl rfl
theorem start : Statement .start := of_word 0x02#8 _ rfl rfl
theorem getst : Statement .getst := of_word 0x03#8 _ rfl rfl
theorem getw (i : Fin 8) : Statement (.getw i) := of_word 0x04#8 _ rfl rfl
theorem getb (j : Fin 32) : Statement (.getb j) := of_word 0x05#8 _ rfl rfl
theorem getx (j : Fin 64) : Statement (.getx j) := of_word 0x06#8 _ rfl rfl
theorem finit : Statement .finit := of_word 0x10#8 _ rfl rfl
theorem frame : Statement .frame := of_word 0x11#8 _ rfl rfl
theorem wload (i : Fin 16) : Statement (.wload i) := of_word 0x20#8 _ rfl rfl
theorem wexp (i : Fin 64) : Statement (.wexp i) := of_word 0x21#8 _ rfl rfl
theorem hinit : Statement .hinit := of_word 0x30#8 _ rfl rfl
theorem seed : Statement .seed := of_word 0x31#8 _ rfl rfl
theorem round (i : Fin 64) : Statement (.round i) := of_word 0x32#8 _ rfl rfl
theorem fold : Statement .fold := of_word 0x33#8 _ rfl rfl
theorem emit : Statement .emit := of_word 0x34#8 _ rfl rfl

end Sys2Proof.Laws.IssuerUnit
end

