-- ==== Sys2Proof/Laws/Run.lean ====
section
/-! SUPPORT. Runs of several steps, the premises on the message, and the invariant of the state. -/

namespace Sys2Proof.Machine

/-- A run begins with its first step. -/
theorem run_succ (n : Nat) {s t : State} (h : step s = .next t) :
    Host.Core.run Sys2Proof.core (n + 1) s = Host.Core.run Sys2Proof.core n t := by
  simp only [Host.Core.run]
  rw [show Sys2Proof.core.step s = .next t from h]

/-- A run goes on from where a shorter run got to. -/
theorem run_add (a b : Nat) {s t : State} (h : Host.Core.run Sys2Proof.core a s = .next t) :
    Host.Core.run Sys2Proof.core (a + b) s = Host.Core.run Sys2Proof.core b t := by
  induction a generalizing s with
  | zero =>
    cases h
    rw [Nat.zero_add]
  | succ a ih =>
    rw [Nat.succ_add]
    simp only [Host.Core.run] at h ⊢
    cases hc : Sys2Proof.core.step s with
    | next s' =>
      rw [hc] at h
      exact ih h
    | fault e =>
      rw [hc] at h
      cases h
    | refused e =>
      rw [hc] at h
      cases h

/-- The bytes of a message are defined. -/
theorem MessageIs.defined {s : State} {m : List Byte} (h : MessageIs s m) : MessageDefined s := by
  intro p hp
  have hp' : p < m.length := by
    rw [← h.1]
    exact hp
  exact ⟨m[p], by rw [h.2 p hp', List.getElem?_eq_getElem hp']⟩

/-- The invariant looks at nothing but these registers. -/
theorem StateInv.congr {s t : State} (h : StateInv s) (hlen : t.LEN = s.LEN) (hbit : t.BITLEN = s.BITLEN) (hblk : t.NBLK = s.NBLK)
    (hbi : t.BI = s.BI) (hmsg : t.msg.wf = true) (hpc : t.pc = s.pc) (hdone : t.DONE = s.DONE)
    (hfault : t.FAULT = s.FAULT) (hcause : t.CAUSE = s.CAUSE) : StateInv t := by
  obtain ⟨a1, a2, a3, a4, a5, a6, a7, a8, a9, a10, a11, a12⟩ := h
  constructor <;> (try simp only [hlen, hbit, hblk, hbi, hpc, hdone, hfault, hcause]) <;> assumption

/-- During a run no flag is set (10_state.md R44). -/
theorem StateInv.running {s : State} (h : StateInv s) (hp : s.pc ≠ 0#16) : s.FAULT = false ∧ s.DONE = false ∧ s.CAUSE = 0#4 := by
  have hf : s.FAULT = false := by
    cases hf : s.FAULT with
    | false => rfl
    | true => exact absurd (h.fault_halted hf).1 hp
  refine ⟨hf, ?_, h.no_cause hf⟩
  cases hd : s.DONE with
  | false => rfl
  | true => exact absurd (h.done_halted hd).1 hp

end Sys2Proof.Machine
end

