-- ==== Sys2Proof/Laws/Words.lean ====
section
/-! SUPPORT. The legal words as numbers: the words of an indexed operation, and membership in their lists. -/

namespace Sys2Proof.Machine

/-- The word of an indexed operation is its base plus the index. -/
theorem encode_indexed_toNat {n : Nat} {f : Fin n → Instr} {opc : BitVec 8} (hn : n ≤ 64)
    (hf : ∀ k, encode (f k) = mkWord opc (BitVec.ofNat 6 k.val)) (k : Fin n) :
    (encode (f k)).toNat = opc.toNat * 256 + k.val := by
  have := k.isLt
  rw [hf, mkWord_toNat, BitVec.toNat_ofNat, Nat.mod_eq_of_lt (by omega)]

/-- A run of words is an interval. -/
theorem mem_wordsFrom {w base : OpWord} {n : Nat} (hb : base.toNat + n ≤ 65536) :
    w ∈ wordsFrom base n ↔ base.toNat ≤ w.toNat ∧ w.toNat < base.toNat + n := by
  have hw := w.isLt
  have hbase := base.isLt
  simp only [wordsFrom, List.mem_map, List.mem_range]
  constructor
  · rintro ⟨k, hk, rfl⟩
    rw [BitVec.toNat_add, BitVec.toNat_ofNat]
    omega
  · intro ⟨h1, h2⟩
    refine ⟨w.toNat - base.toNat, by omega, ?_⟩
    apply BitVec.eq_of_toNat_eq
    rw [BitVec.toNat_add, BitVec.toNat_ofNat]
    omega

end Sys2Proof.Machine
end

