-- ==== Sys2Proof/Tests/Slice0.lean ====
section
/-! SUPPORT. The model's own tests, and for every statement with hypotheses a concrete state and operands that meet them.
Expected values are those of spec/95_test_vectors.md and of the rules' worked examples; each test names its source. -/

namespace Sys2Proof.Tests

open Sys2Proof Sys2Proof.Machine

-- One theorem at a time: checked all at once they ask for more threads than the memory limit of the check leaves room for.
set_option Elab.async false

/-! ### Helpers -/

/-- What a next state looks like through `f`. -/
def seen {α : Type} (f : State → α) : Host.Outcome State Fault Refusal → Option α
  | .next t => some (f t)
  | .fault _ => none
  | .refused _ => none

/-- The fault an outcome ends in. -/
def stopped : Host.Outcome State Fault Refusal → Option Fault
  | .next _ => none
  | .fault e => some e
  | .refused _ => none

/-- The whole next state. -/
def after (o : Host.Outcome State Fault Refusal) : Option State := seen id o

theorem next_of_after {o : Host.Outcome State Fault Refusal} {t : State} (h : after o = some t) : o = .next t := by
  cases o with
  | next s => exact congrArg Host.Outcome.next (Option.some.inj h)
  | fault e => cases h
  | refused r => cases h

theorem next_of_isSome {o : Host.Outcome State Fault Refusal} (h : (after o).isSome = true) : ∃ t, o = .next t := by
  cases o with
  | next s => exact ⟨s, rfl⟩
  | fault e => cases h
  | refused r => cases h

/-- A machine about to frame block 0 of "abc" (V9). -/
def abc : State := { State.reset with
  LEN := 3#64, BITLEN := 24#64, NBLK := 1#64, H := Config.IV, pc := 0x1100#16, msg := [(0, 0x61#8), (1, 0x62#8), (2, 0x63#8)] }

/-- The same machine before a run. -/
def abcIdle : State := { State.reset with LEN := 3#64, msg := abc.msg }

/-- The block of V9. -/
def abcBlock : Vector Byte 64 := #v[
  0x61, 0x62, 0x63, 0x80, 0, 0, 0, 0, 0, 0, 0, 0, 0, 0, 0, 0, 0, 0, 0, 0, 0, 0, 0, 0, 0, 0, 0, 0, 0, 0, 0, 0,
  0, 0, 0, 0, 0, 0, 0, 0, 0, 0, 0, 0, 0, 0, 0, 0, 0, 0, 0, 0, 0, 0, 0, 0, 0, 0, 0, 0, 0, 0, 0, 0x18]

/-- The working variables after ROUND 63 of "abc" (V25, V28). -/
def abcLast : Vector Word 8 := #v[0x506e3058, 0xd39a2165, 0x04d24d6c, 0xb85e2ce9, 0x5ef50f24, 0xfb121210, 0x948d25b6, 0x961f4894]

/-- The digest of "abc" (S2, V28). -/
def abcDigest : Vector Word 8 := #v[0xba7816bf, 0x8f01cfea, 0x414140de, 0x5dae2223, 0xb00361a3, 0x96177a9c, 0xb410ff61, 0xf20015ad]

/-- Schedule words 0 and 15 of "abc" (V19), the rest zero. -/
def abcW : Vector Word 64 := (State.reset.W.set 0 0x61626380#32).set 15 0x00000018#32

/-- A machine with the digest of "abc" ready. -/
def abcDone : State := { abcIdle with H := abcDigest, DONE := true, BITLEN := 24#64, NBLK := 1#64, BI := 1#64 }

/-- A machine in the middle of the rounds of "abc". -/
def abcRounds : State := { abc with pc := 0x3205#16, BI := 1#64, BLK := abcBlock, W := abcW, V := Config.IV }

/-- A machine stopped for good. -/
def broken : State := { abcIdle with FAULT := true, CAUSE := 5#4 }

/-! ### Well-formedness -/

theorem test_wf_refuses_wexp_15 : (Instr.wexp 15).wf = false := by decide
theorem test_wf_refuses_wexp_0 : (Instr.wexp 0).wf = false := by decide
theorem test_wf_accepts_wexp_16 : (Instr.wexp 16).wf = true := by decide

/-! ### Decoding: words written out from 30_encoding.md R83 -/

theorem test_decode_setlen : decode 0x0100#16 = .ok .setlen := by decide
theorem test_decode_start : decode 0x0200#16 = .ok .start := by decide
theorem test_decode_getst : decode 0x0300#16 = .ok .getst := by decide
/-- `opc = 00000100`, `z = 00`, `idx = 000111`. -/
theorem test_decode_getw : decode 0b0000010000000111#16 = .ok (.getw 7) := by decide
theorem test_decode_getb : decode 0x051F#16 = .ok (.getb 31) := by decide
theorem test_decode_getx : decode 0x063F#16 = .ok (.getx 63) := by decide
theorem test_decode_finit : decode 0x1000#16 = .ok .finit := by decide
/-- `opc = 00010001`, `z = 00`, `idx = 000000`. -/
theorem test_decode_frame : decode 0b0001000100000000#16 = .ok .frame := by decide
theorem test_decode_wload : decode 0x200F#16 = .ok (.wload 15) := by decide
/-- `opc = 00100001`, `z = 00`, `idx = 010000`. -/
theorem test_decode_wexp : decode 0b0010000100010000#16 = .ok (.wexp 16) := by decide
theorem test_decode_hinit : decode 0x3000#16 = .ok .hinit := by decide
theorem test_decode_seed : decode 0x3100#16 = .ok .seed := by decide
/-- `opc = 00110010`, `z = 00`, `idx = 000101`. -/
theorem test_decode_round : decode 0b0011001000000101#16 = .ok (.round 5) := by decide
theorem test_decode_fold : decode 0x3300#16 = .ok .fold := by decide
theorem test_decode_emit : decode 0x3400#16 = .ok .emit := by decide

/-- Reserved words of 30_encoding.md R85 and V35, one for each reason. -/
theorem test_decode_reserved :
    decode 0x0000#16 = .error .functionReserved ∧ decode 0x0700#16 = .error .functionReserved ∧
    decode 0x0101#16 = .error .indexReserved ∧ decode 0x0408#16 = .error .indexReserved ∧
    decode 0x0520#16 = .error .indexReserved ∧ decode 0x2010#16 = .error .indexReserved ∧
    decode 0x210F#16 = .error .indexReserved ∧ decode 0x0640#16 = .error .zNotZero ∧
    decode 0x4000#16 = .error .unitReserved ∧ decode 0xFFFF#16 = .error .zNotZero := by decide

theorem test_encode_examples :
    encode (.round 5) = 0x3205#16 ∧ encode (.wexp 63) = 0x213F#16 ∧ encode (.getx 63) = 0x063F#16 := by decide

theorem test_table_word :
    decodeTableWord 16 0x2110 = some (.wexp 16) ∧ decodeTableWord 16 0x210F = none ∧ decodeTableWord 16 0x0300 = some .getst := by
  decide

/-- `withFetchWord` puts a host word on the port and any other word into `pc`. -/
theorem test_fetch_word :
    after (step (State.reset.withFetchWord 16 0x0200)) = after (exec .start State.reset) ∧
    (seen (·.pc) (step (State.reset.withFetchWord 16 0x3100)) = some 0x3200#16) ∧
    (seen (·.CAUSE) (step (State.reset.withFetchWord 16 0x2010)) = some 5#4) := by decide +kernel

/-! ### Memory -/

theorem test_memory_order : Memory.write (Memory.write [] 5 0xAA) 2 0xBB = [(2, 0xBB), (5, 0xAA)] := by decide
theorem test_memory_same : Memory.write [(2, 0xBB), (5, 0xAA)] 5 0x00 = [(2, 0xBB), (5, 0x00)] := by decide
theorem test_memory_wf_refuses : Memory.wf [(5, 0xAA), (2, 0xBB)] = false ∧ Memory.wf [(2, 0xBB), (2, 0xBB)] = false := by decide

/-! ### Functions: V1 to V5 -/

theorem test_rotr : rotr 0x00000001 1 = 0x80000000 ∧ rotr 0x12345678 7 = 0xf02468ac := by decide
theorem test_small_sigma : ssig0 0x12345678 = 0xe7fce6ee ∧ ssig1 0x12345678 = 0xa1f78649 := by decide
theorem test_big_sigma : bsig0 0x6a09e667 = 0xce20b47e ∧ bsig1 0x510e527f = 0x3587272b := by decide
theorem test_ch : ch 0xff00ff00 0x12345678 0x9abcdef0 = 0x12bc56f0 := by decide
theorem test_maj : maj 0xff00ff00 0x12345678 0x9abcdef0 = 0x9a34de70 := by decide

/-! ### Host operations -/

/-- 43_host_commands.md R171, example. -/
theorem test_setlen : seen (fun t => (t.LEN, t.response)) (hostTransaction 0x0100#16 { State.reset with din := 3#64 }) =
    some (3#64, some ⟨0, 0⟩) := by decide +kernel
theorem test_setlen_busy : seen (fun t => (t.LEN, t.response)) (exec .setlen { abcRounds with din := 9#64 }) =
    some (3#64, some ⟨2, 0⟩) := by decide +kernel
/-- 43_host_commands.md R172: a digest that is ready is given up. -/
theorem test_start : seen (fun t => (t.pc, t.DONE, t.response)) (exec .start abcDone) = some (0x1000#16, false, some ⟨0, 0⟩) := by
  decide +kernel
theorem test_start_faulted : seen (·.response) (exec .start broken) = some (some ⟨4, 0⟩) := by decide +kernel
/-- 43_host_commands.md R173, examples. -/
theorem test_getst : seen (·.response) (exec .getst abcRounds) = some (some ⟨0, 0x00000001⟩) := by decide +kernel
theorem test_getst_faulted : seen (·.response) (exec .getst broken) = some (some ⟨0, 0x00000054⟩) := by decide +kernel
/-- 43_host_commands.md R174, examples. -/
theorem test_getw : seen (·.response) (exec (.getw 7) abcDone) = some (some ⟨0, 0xf20015ad⟩) := by decide +kernel
/-- 60_exceptions.md R209: GETW during a run is NotDone, not Busy. -/
theorem test_getw_not_done : seen (·.response) (exec (.getw 0) abcRounds) = some (some ⟨3, 0⟩) := by decide +kernel
/-- 43_host_commands.md R175, examples. -/
theorem test_getb : seen (·.response) (exec (.getb 3) abcDone) = some (some ⟨0, 0xbf⟩) := by decide +kernel
theorem test_getb_last : seen (·.response) (exec (.getb 31) abcDone) = some (some ⟨0, 0xad⟩) := by decide +kernel
/-- 43_host_commands.md R176, examples. -/
theorem test_getx_letter : seen (·.response) (exec (.getx 0) abcDone) = some (some ⟨0, 0x62⟩) := by decide +kernel
theorem test_getx_digit : seen (·.response) (exec (.getx 2) abcDone) = some (some ⟨0, 0x37⟩) := by decide +kernel
/-- 60_exceptions.md R202: a sequencer word and a reserved word on the port, in a faulted core. -/
theorem test_illegal : seen (·.response) (hostTransaction 0x3205#16 broken) = some (some ⟨1, 0⟩) ∧
    seen (·.response) (hostTransaction 0x0408#16 broken) = some (some ⟨1, 0⟩) := by decide +kernel

/-! ### Sequencer operations -/

/-- V7, `LEN = 2^61 + 1`: the wrapped bit length. -/
theorem test_finit_wrap : seen (fun t => (t.BITLEN, t.NBLK, t.BI, t.pc))
    (exec .finit { State.reset with LEN := 0x2000000000000001#64, BI := 7#64 }) =
    some (8#64, 0x80000000000001#64, 0#64, 0x3000#16) := by decide +kernel
/-- V7, `LEN = 2^64 - 8`: the 65-bit sum. -/
theorem test_finit_top : seen (·.NBLK) (exec .finit { State.reset with LEN := 0xFFFFFFFFFFFFFFF8#64 }) =
    some 0x400000000000001#64 := by decide +kernel
/-- V9. -/
theorem test_frame : seen (fun t => (t.BLK, t.BI, t.pc)) (exec .frame abc) = some (abcBlock, 1#64, 0x2000#16) := by decide +kernel
/-- 93_implementation_defined.md U3. -/
theorem test_frame_undefined : stopped (exec .frame { abc with LEN := 5#64 }) = some (.messageUndefined 3) := by decide +kernel
/-- 41_schedule_expander.md R121, examples. -/
theorem test_wload : seen (fun t => (t.W[0], t.pc)) (exec (.wload 0) { abc with BLK := abcBlock }) = some (0x61626380, 0x2001) := by
  decide +kernel
theorem test_wload_last : seen (fun t => (t.W[15], t.pc)) (exec (.wload 15) { abc with BLK := abcBlock }) =
    some (0x00000018, 0x2110) := by decide +kernel
/-- V19, `WEXP 17`. -/
theorem test_wexp : seen (fun t => (t.W[17], t.pc)) (exec (.wexp 17) { abc with W := abcW }) = some (0x000f0000, 0x2112) := by
  decide +kernel
/-- V21. -/
theorem test_wexp_wrap : seen (fun t => t.W[16]) (exec (.wexp 16) { abc with W := Vector.replicate 64 0xffffffff }) =
    some 0x203ffffc := by decide +kernel
/-- V23. -/
theorem test_hinit : seen (fun t => (t.H[0], t.H[7], t.pc)) (exec .hinit State.reset) = some (0x6a09e667, 0x5be0cd19, 0x1100) := by
  decide +kernel
/-- V30: the second SEED copies what the first FOLD left. -/
theorem test_seed : seen (fun t => (t.V, t.pc)) (exec .seed { abc with H := abcDigest }) = some (abcDigest, 0x3200) := by
  decide +kernel
/-- V24. -/
theorem test_round : seen (fun t => (t.V, t.pc)) (exec (.round 0) { abc with W := abcW, V := Config.IV }) =
    some (#v[0x5d6aebcd, 0x6a09e667, 0xbb67ae85, 0x3c6ef372, 0xfa2a4622, 0x510e527f, 0x9b05688c, 0x1f83d9ab], 0x3201) := by
  decide +kernel
/-- V27, `i = 63`. -/
theorem test_round_last : seen (fun t => (t.V[0], t.V[4], t.V[1], t.pc)) (exec (.round 63) State.reset) =
    some (0xc67178f2, 0xc67178f2, 0, 0x3300) := by decide +kernel
/-- V28. -/
theorem test_fold : seen (fun t => (t.H, t.pc)) (exec .fold { abc with V := abcLast, BI := 1#64 }) = some (abcDigest, 0x3400) := by
  decide +kernel
theorem test_fold_more : seen (·.pc) (exec .fold { abc with NBLK := 2#64, BI := 1#64 }) = some 0x1100 := by decide +kernel
/-- V28. -/
theorem test_emit : seen (fun t => (t.DONE, t.pc, t.status)) (exec .emit abcRounds) = some (true, 0, 0x00000002) := by decide +kernel
/-- V39: a reserved word in `pc`. -/
theorem test_invariant_fault : seen (fun t => (t.FAULT, t.CAUSE, t.DONE, t.pc)) (sequencerStep { abc with pc := 0x2010 }) =
    some (true, 5, false, 0) := by decide +kernel
/-- V39: a host word in `pc`. -/
theorem test_invariant_fault_host_word : seen (fun t => (t.FAULT, t.CAUSE, t.pc)) (sequencerStep { abc with pc := 0x0300 }) =
    some (true, 5, 0) := by decide +kernel
/-- S2: the reference digest of "abc". -/
theorem test_digest_abc : digestOf [0x61, 0x62, 0x63] = abcDigest := by decide +kernel

/-! ### Witnesses: a state and operands that meet the hypotheses of each statement -/

theorem inv_abc : StateInv abc where
  msg_wf := by decide
  legal_pc := by decide
  done_halted := by decide
  fault_halted := by decide
  no_cause := by decide
  lengths := fun _ => by decide
  blocks := fun _ => by decide
  none_framed := by decide
  block_remains := by decide
  one_framed := fun _ _ h => absurd rfl h
  all_framed := by decide
  done_framed := by decide

theorem inv_abcRounds : StateInv abcRounds where
  msg_wf := by decide
  legal_pc := by decide
  done_halted := by decide
  fault_halted := by decide
  no_cause := by decide
  lengths := fun _ => by decide
  blocks := fun _ => by decide
  none_framed := by decide
  block_remains := by decide
  one_framed := fun _ _ _ => by decide
  all_framed := by decide
  done_framed := by decide

theorem inv_abcDone : StateInv abcDone where
  msg_wf := by decide
  legal_pc := by decide
  done_halted := by decide
  fault_halted := by decide
  no_cause := by decide
  lengths := fun h => absurd rfl h.1
  blocks := fun h => absurd rfl h.1
  none_framed := by decide
  block_remains := by decide
  one_framed := fun h => absurd rfl h.1
  all_framed := by decide
  done_framed := by decide

theorem inv_broken : StateInv broken where
  msg_wf := by decide
  legal_pc := by decide
  done_halted := by decide
  fault_halted := by decide
  no_cause := by decide
  lengths := fun h => absurd rfl h.1
  blocks := fun h => absurd rfl h.1
  none_framed := by decide
  block_remains := by decide
  one_framed := fun h => absurd rfl h.1
  all_framed := by decide
  done_framed := by decide

/-- At EMIT, the last block folded. -/
def abcEmit : State := { abcRounds with pc := 0x3400#16, H := abcDigest }

theorem inv_abcEmit : StateInv abcEmit where
  msg_wf := by decide
  legal_pc := by decide
  done_halted := by decide
  fault_halted := by decide
  no_cause := by decide
  lengths := fun _ => by decide
  blocks := fun _ => by decide
  none_framed := by decide
  block_remains := by decide
  one_framed := fun _ _ _ => by decide
  all_framed := fun _ => by decide
  done_framed := by decide

theorem abc_message : MessageIs abc [0x61, 0x62, 0x63] := ⟨by decide, by decide⟩
theorem abcIdle_message : MessageIs abcIdle [0x61, 0x62, 0x63] := ⟨by decide, by decide⟩

theorem witness_DecodeOfEncode : (Instr.wexp 16).wf = true ∧ (Instr.wexp 63).wf = true ∧ (Instr.getb 31).wf = true := by decide

theorem witness_EncodeOfDecode : decode 0x213F#16 = .ok (.wexp 63) ∧ decode 0x0400#16 = .ok (.getw 0) := by decide

theorem witness_StepRunsTheDecodedOperation :
    (Instr.frame.issuer = .sequencer ∧ decode abc.pc = .ok .frame ∧ abc.schedule = [] ∧
      ({ abc with schedule := [.sequencer, .reset] } : State).schedule = .sequencer :: [.reset]) ∧
    ((Instr.getw 7).issuer = .host ∧ decode 0x0407#16 = .ok (.getw 7) ∧
      ({ abcDone with schedule := [.hostOp 0x0407#16 5#64] } : State).schedule = .hostOp 0x0407#16 5#64 :: []) := by decide

theorem witness_StepTakesResetAndMessageWrites :
    ({ abcRounds with schedule := [.reset, .sequencer] } : State).schedule = .reset :: [.sequencer] ∧
    ({ abcRounds with schedule := [.writeMsg 0xFFFFFFFFFFFFFFFF#64 0x00#8] } : State).schedule =
      .writeMsg 0xFFFFFFFFFFFFFFFF#64 0x00#8 :: [] ∧ (3 : Nat) ≠ (0xFFFFFFFFFFFFFFFF#64).toNat := by decide

theorem witness_IdleCoreWaits : abcDone.pc = 0x0000#16 ∧ abcDone.schedule = [] ∧
    ({ abcDone with schedule := [.sequencer] } : State).schedule = .sequencer :: [] := by decide

theorem witness_StepStopsOnlyAtAnUndefinedMessageByte :
    stopped (step { abc with LEN := 5#64 }) = some (.messageUndefined 3) := by decide +kernel

theorem not_host_of_decode {w : OpWord} {j : Instr} (h : decode w = .ok j) (hj : j.issuer = .sequencer) :
    ∀ i, decode w = .ok i → i.issuer = .sequencer := by
  intro i hi
  rw [h] at hi
  cases hi
  exact hj

theorem not_host_of_reserved {w : OpWord} {e : DecodeReject} (h : decode w = .error e) :
    ∀ i, decode w = .ok i → i.issuer = .sequencer := by
  intro i hi
  rw [h] at hi
  cases hi

theorem witness_HostTransactionFollowsTheCheckOrder :
    (∀ i, decode 0x1000#16 = .ok i → i.issuer = .sequencer) ∧ (∀ i, decode 0x0640#16 = .ok i → i.issuer = .sequencer) ∧
    decode 0x0300#16 = .ok .getst ∧
    (decode 0x0407#16 = .ok (.getw 7) ∧ (Instr.getw 7).issuer = .host ∧ Instr.getw 7 ≠ .getst ∧ Instr.getw 7 ≠ .setlen ∧
      Instr.getw 7 ≠ .start ∧ broken.FAULT = true ∧ abcRounds.FAULT = false ∧ abcRounds.DONE = false ∧
      abcDone.FAULT = false ∧ abcDone.DONE = true) ∧
    (decode 0x0200#16 = .ok .start ∧ Instr.start.issuer = .host ∧ abcRounds.pc ≠ 0#16 ∧ abcIdle.pc = 0#16 ∧
      abcIdle.FAULT = false ∧ decode 0x0200#16 ≠ .ok .setlen) ∧
    (∃ t, hostTransaction 0x0200#16 abcIdle = .next t) :=
  ⟨not_host_of_decode (j := .finit) (by decide) (by decide), not_host_of_reserved (e := .zNotZero) (by decide), by decide,
    by decide, by decide, next_of_isSome (by decide +kernel)⟩

theorem witness_IllegalWordsAreRejected : (0x0000#16 ∉ hostWords) ∧ (0x0408#16 ∉ hostWords) ∧ (0x0640#16 ∉ hostWords) ∧
    (0x1000#16 ∉ hostWords) ∧ (0xFFFF#16 ∉ hostWords) := by decide +kernel

theorem witness_InvariantFaultEntry :
    (0x2010#16 ≠ 0#16 ∧ 0x2010#16 ∉ sequencerWords) ∧ (0x210F#16 ≠ 0#16 ∧ 0x210F#16 ∉ sequencerWords) ∧
    (0x0300#16 ≠ 0#16 ∧ 0x0300#16 ∉ sequencerWords) ∧ (0x0001#16 ≠ 0#16 ∧ 0x0001#16 ∉ sequencerWords) ∧
    Turn.sequencer ≠ .reset := by decide +kernel

theorem witness_FatalFaultLastsUntilReset : broken.FAULT = true ∧ broken.pc = 0x0000#16 ∧ broken.DONE = false ∧
    Turn.hostOp 0x0200#16 0#64 ≠ .reset ∧ 0x0100#16 ∈ hostWords ∧ 0x063F#16 ∈ hostWords ∧ 0x063F#16 ≠ 0x0300#16 := by
  decide +kernel

theorem witness_SetlenWritesTheLength : (abcIdle.FAULT = false ∧ abcIdle.pc = 0#16) ∧ broken.FAULT = true ∧
    (abcRounds.FAULT = false ∧ abcRounds.pc ≠ 0#16) ∧ ((0x0101#16).toNat / 256 = 0x01 ∧ (0x0101#16).toNat % 256 ≠ 0) ∧
    ((0x01FF#16).toNat / 256 = 0x01 ∧ (0x01FF#16).toNat % 256 ≠ 0) := by decide

theorem witness_StartBeginsARun : (abcDone.FAULT = false ∧ abcDone.pc = 0#16) ∧ broken.FAULT = true ∧
    (abcRounds.FAULT = false ∧ abcRounds.pc ≠ 0#16) ∧ ((0x0201#16).toNat / 256 = 0x02 ∧ (0x0201#16).toNat % 256 ≠ 0) := by
  decide

theorem witness_GetstReadsTheStatus : StateInv abcRounds ∧ StateInv abcDone ∧ StateInv broken ∧
    ((0x0301#16).toNat / 256 = 0x03 ∧ (0x0301#16).toNat % 256 ≠ 0) :=
  ⟨inv_abcRounds, inv_abcDone, inv_broken, by decide⟩

theorem witness_GetwReadsADigestWord : (abcDone.FAULT = false ∧ abcDone.DONE = true) ∧ broken.FAULT = true ∧
    (abcRounds.FAULT = false ∧ abcRounds.DONE = false) ∧ ((0x0408#16).toNat / 256 = 0x04 ∧ 8 ≤ (0x0408#16).toNat % 256) ∧
    ((0x04FF#16).toNat / 256 = 0x04 ∧ 8 ≤ (0x04FF#16).toNat % 256) := by decide

theorem witness_GetbReadsADigestByte : (abcDone.FAULT = false ∧ abcDone.DONE = true) ∧ broken.FAULT = true ∧
    (abcRounds.FAULT = false ∧ abcRounds.DONE = false) ∧ ((0x0520#16).toNat / 256 = 0x05 ∧ 32 ≤ (0x0520#16).toNat % 256) := by
  decide

theorem witness_GetxReadsADigestCharacter : (abcDone.FAULT = false ∧ abcDone.DONE = true) ∧ broken.FAULT = true ∧
    (abcRounds.FAULT = false ∧ abcRounds.DONE = false) ∧ ((0x0640#16).toNat / 256 = 0x06 ∧ 64 ≤ (0x0640#16).toNat % 256) := by
  decide

/-- The bytes FRAME reads in `abc` are defined, a block remains, and each case of R104 is met: offsets 2, 3, 4, 55, 56, 63. -/
theorem witness_FrameProducesTheNextBlock :
    (∀ p, 64 * abc.BI.toNat ≤ p → p ≤ 64 * abc.BI.toNat + 63 → p < abc.LEN.toNat → ∃ b, abc.msg.read p = some b) ∧
    abc.BI.toNat < abc.NBLK.toNat ∧ (∀ j, j < 64 → 64 * abc.BI.toNat + j < 64 * abc.NBLK.toNat) ∧
    2 < abc.LEN.toNat ∧ 3 = abc.LEN.toNat ∧ (abc.LEN.toNat < 4 ∧ 55 + 8 < 64 * abc.NBLK.toNat) ∧
    (64 * abc.NBLK.toNat ≤ 56 + 8 ∧ 64 * abc.NBLK.toNat ≤ 63 + 8) ∧ abc.NBLK = blockCount abc.LEN :=
  ⟨fun p _ _ hp => abc_message.defined p hp, by decide, by decide, by decide, by decide, by decide, by decide, by decide⟩

theorem witness_FrameStopsAtTheFirstUndefinedByte :
    let s : State := { abc with LEN := 5#64 }
    64 * s.BI.toNat ≤ 3 ∧ 3 ≤ 64 * s.BI.toNat + 63 ∧ 3 < s.LEN.toNat ∧ s.msg.read 3 = none ∧
    ∀ q, 64 * s.BI.toNat ≤ q → q < 3 → ∃ b, s.msg.read q = some b :=
  ⟨by decide, by decide, by decide, by decide, fun q _ hq => abc_message.defined q hq⟩

theorem witness_FrameReadsOnlyItsOwnBytes :
    (∀ p, 64 * abc.BI.toNat ≤ p → p ≤ 64 * abc.BI.toNat + 63 → p < abc.LEN.toNat →
      Memory.read (Memory.write abc.msg 3 0xFF) p = abc.msg.read p) ∧
    (∃ t, exec .frame abc = .next t) ∧ stopped (exec .frame { abc with LEN := 5#64 }) = some (.messageUndefined 3) :=
  ⟨fun p _ _ hp => Memory.read_write_other _ _ (by have : abc.LEN.toNat = 3 := by decide
                                                   omega), next_of_isSome (by decide +kernel), by decide +kernel⟩

theorem witness_WloadAssemblesAWord : ((14 : Fin 16).val < 15 ∧ ¬ (15 : Fin 16).val < 15) ∧
    ((0x2010#16).toNat / 64 = 0x2000 / 64 ∧ 16 ≤ (0x2010#16).toNat % 64) ∧
    ((0x203F#16).toNat / 64 = 0x2000 / 64 ∧ 16 ≤ (0x203F#16).toNat % 64) := by decide

theorem witness_WexpExpandsAWord : (16 ≤ (16 : Fin 64).val ∧ 16 ≤ (63 : Fin 64).val) ∧
    ((0x2100#16).toNat / 64 = 0x2100 / 64 ∧ (0x2100#16).toNat % 64 ≤ 15) ∧
    ((0x210F#16).toNat / 64 = 0x2100 / 64 ∧ (0x210F#16).toNat % 64 ≤ 15) := by decide

theorem witness_EmitDeclaresTheDigest : (StateInv abcEmit ∧ abcEmit.pc = 0x3400#16) ∧
    (StateInv abcDone ∧ abcDone.DONE = true ∧
      seen (·.DONE) (step { abcDone with schedule := [.hostOp 0x0100#16 9#64] }) = some true) :=
  ⟨⟨inv_abcEmit, by decide⟩, inv_abcDone, by decide, by decide +kernel⟩

theorem witness_RotationMovesBits : (0 < 32 ∧ 31 < 32) ∧ (rotr 0x80000000#32 31).getLsbD 0 = true := by decide

theorem witness_SmallSigmaBits : (0 < 32 ∧ 31 < 32) ∧ (ssig0 0x00000008#32).getLsbD 0 = true := by decide
theorem witness_BigSigmaBits : (0 < 32 ∧ 31 < 32) ∧ (bsig0 0x00000004#32).getLsbD 0 = true := by decide
theorem witness_ChoiceSelectsBits : (0 < 32 ∧ 31 < 32) ∧ (0x80000000#32).getLsbD 31 = true := by decide
theorem witness_MajorityOfBits : (0 < 32 ∧ 31 < 32) ∧ (maj 1#32 1#32 0#32).getLsbD 0 = true := by decide

theorem witness_BlockCountAndPadding : (0 % 64 ≤ 55 ∧ 55 % 64 ≤ 55) ∧ (56 ≤ 56 % 64 ∧ 56 ≤ 63 % 64) ∧ 0 < zeroCount 3 ∧
    zeroCount 55 = 0 ∧ zeroCount 56 = 63 := by decide

theorem witness_PaddedMessageShape : 2 < [0x61#8, 0x62#8, 0x63#8].length ∧ [0x61#8, 0x62#8, 0x63#8].length < 4 ∧
    4 + 8 < (padMessage [0x61#8, 0x62#8, 0x63#8]).length ∧ 55 + 8 < (padMessage [0x61#8, 0x62#8, 0x63#8]).length := by
  decide +kernel

theorem witness_SuccessorOfEveryPosition : (legalPc abcRounds.pc = true ∧ ∃ t, sequencerStep abcRounds = .next t) ∧
    abcRounds.pc ≠ 0x1100#16 ∧ (legalPc 0x0000#16 = true ∧ legalPc 0x213F#16 = true ∧ legalPc 0x3300#16 = true) ∧
    (abcIdle.pc = 0x0000#16 ∧ seen (·.pc) (hostTransaction 0x0200#16 abcIdle) = some 0x1000#16) :=
  ⟨⟨by decide, next_of_isSome (by decide +kernel)⟩, by decide, by decide, by decide, by decide +kernel⟩

theorem witness_WriteSetsOfTheOperations : (Instr.wexp 16).wf = true ∧ (∃ t, exec (.wexp 16) abcRounds = .next t) ∧
    Reg.H ∉ writeSet (.wexp 16) ∧ Instr.issuer (.wexp 16) = .sequencer :=
  ⟨by decide, next_of_isSome (by decide +kernel), by decide, by decide⟩

/-- A register WEXP neither reads nor writes, and two that FRAME writes and does not read. -/
theorem witness_ReadSetsOfTheOperations :
    ((Instr.wexp 16).wf = true ∧ Reg.V ∉ readSet (.wexp 16) ∧
      Reg.V.differOnlyAt abcRounds { abcRounds with V := abcDigest }) ∧
    (Instr.frame.wf = true ∧ Reg.BLK ∉ readSet .frame ∧ Reg.BLK.differOnlyAt abc { abc with BLK := abcBlock }) ∧
    (Reg.pc ∉ readSet .frame ∧ Reg.pc.differOnlyAt abc { abc with pc := 0x3400#16 }) :=
  ⟨⟨by decide, by decide, _, rfl⟩, ⟨by decide, by decide, _, rfl⟩, by decide, _, rfl⟩

theorem witness_CoreNeverWritesMessage : (∀ p b, Turn.sequencer ≠ .writeMsg p b) ∧ ∃ t, takeTurn .sequencer abc = .next t :=
  ⟨fun _ _ h => (by cases h), next_of_isSome (by decide +kernel)⟩

theorem witness_HostCannotDisturbARun : abcRounds.pc ≠ 0x0000#16 := by decide

/-- During a run the two states differ in every hidden register; with the digest ready, in all but H. -/
theorem witness_HiddenStateStaysHidden :
    let t : State := { abcRounds with pc := 0x2000#16, BI := 9#64, H := abcLast, V := abcDigest, W := State.reset.W }
    let u : State := { abcDone with V := abcLast, BI := 9#64, LEN := 7#64 }
    (abcRounds.busy = t.busy ∧ abcRounds.DONE = t.DONE ∧ abcRounds.FAULT = t.FAULT ∧ abcRounds.CAUSE = t.CAUSE ∧
      (abcRounds.DONE = true → abcRounds.H = t.H) ∧ (∃ s', hostTransaction 0x0407#16 abcRounds = .next s') ∧
      ∃ t', hostTransaction 0x0407#16 t = .next t') ∧
    (abcDone.busy = u.busy ∧ abcDone.DONE = u.DONE ∧ abcDone.FAULT = u.FAULT ∧ abcDone.CAUSE = u.CAUSE ∧
      (abcDone.DONE = true → abcDone.H = u.H) ∧ (∃ s', hostTransaction 0x0407#16 abcDone = .next s') ∧
      ∃ t', hostTransaction 0x0407#16 u = .next t') :=
  ⟨⟨by decide, by decide, by decide, by decide, by decide, next_of_isSome (by decide +kernel), next_of_isSome (by decide +kernel)⟩,
    by decide, by decide, by decide, by decide, fun _ => rfl, next_of_isSome (by decide +kernel), next_of_isSome (by decide +kernel)⟩

theorem witness_InvariantKeptByEveryStep : StateInv abc ∧ ∃ t, step abc = .next t :=
  ⟨inv_abc, next_of_isSome (by decide +kernel)⟩

theorem witness_InvariantFaultIsUnreachable : StateInv abcRounds ∧ abcRounds.FAULT = false ∧ ∃ t, step abcRounds = .next t :=
  ⟨inv_abcRounds, by decide, next_of_isSome (by decide +kernel)⟩

theorem witness_StatusLayoutAndValues : StateInv broken ∧ broken.status = 0x00000054#32 := ⟨inv_broken, by decide⟩

theorem witness_FramesDeliverThePaddedMessage : StateInv abc ∧ abc.pc = 0x1100#16 ∧ MessageIs abc [0x61, 0x62, 0x63] :=
  ⟨inv_abc, by decide, abc_message⟩

theorem witness_ScheduleIsAFunctionOfTheBlock :
    let s : State := { abc with pc := 0x2000#16, BLK := abcBlock, BI := 1#64, W := Vector.replicate 64 0xffffffff }
    s.pc = 0x2000#16 ∧ s.schedule = [] := by decide

theorem witness_RoundsAndFoldCompress :
    let s : State := { abc with
      pc := 0x3100#16, BI := 1#64, W := Vector.ofFn fun i => (scheduleOf abcBlock).getD i.val 0 }
    s.pc = 0x3100#16 ∧ s.schedule = [] ∧ s.W.toList = scheduleOf abcBlock := by decide +kernel

theorem witness_RunComputesTheDigest :
    let s : State := { abcIdle with schedule := [.hostOp 0x0200#16 0#64] }
    s.pc = 0x0000#16 ∧ s.FAULT = false ∧ s.CAUSE = 0#4 ∧ MessageIs s [0x61, 0x62, 0x63] ∧
      s.schedule = [.hostOp 0x0200#16 0#64] :=
  ⟨by decide, by decide, by decide, abcIdle_message, by decide⟩

/-- Status polls, a refused START and a reserved word between the 134 steps of the sequencer. -/
theorem witness_RunUnderAnyInterleaving :
    let s : State := { abcIdle with
      pc := 0x1000#16
      schedule := [.hostOp 0x0300#16 0#64] ++ List.replicate 60 .sequencer ++
        [.hostOp 0x0200#16 0#64, .hostOp 0xFFFF#16 7#64, .hostOp 0x0100#16 5#64] ++ List.replicate 74 .sequencer }
    s.pc = 0x1000#16 ∧ s.FAULT = false ∧ MessageIs s [0x61, 0x62, 0x63] ∧ (∀ turn ∈ s.schedule, turn.harmless = true) ∧
      s.schedule.count .sequencer = 131 * blocksFor [0x61#8, 0x62#8, 0x63#8].length + 3 ∧
      s.schedule.getLast? = some .sequencer :=
  ⟨by decide, by decide, abcIdle_message, by decide +kernel, by decide +kernel, by decide +kernel⟩

/-- The two machines differ in H, V, W, DONE and in a byte of MSG at LEN. -/
theorem witness_DigestDependsOnTheMessageAlone :
    let s : State := { abcIdle with schedule := [.hostOp 0x0200#16 0#64] }
    let t : State := { abcDone with
      V := abcLast, W := abcW, msg := Memory.write abc.msg 3 0xFF, schedule := [.hostOp 0x0200#16 8#64] }
    s.pc = 0x0000#16 ∧ t.pc = 0x0000#16 ∧ s.FAULT = false ∧ t.FAULT = false ∧ s.LEN = t.LEN ∧
      (∀ p, p < s.LEN.toNat → s.msg.read p = t.msg.read p) ∧ MessageDefined s ∧
      s.schedule = [.hostOp 0x0200#16 0#64] ∧ t.schedule = [.hostOp 0x0200#16 8#64] :=
  ⟨by decide, by decide, by decide, by decide, by decide, by decide, abcIdle_message.defined, by decide, by decide⟩

theorem witness_RunEndsFromAnywhere :
    (StateInv abc ∧ abc.pc ≠ 0x0000#16 ∧ abc.schedule = [] ∧ MessageDefined abc) ∧
    (StateInv abcEmit ∧ abcEmit.pc ≠ 0x0000#16 ∧ abcEmit.schedule = [] ∧ MessageDefined abcEmit) :=
  ⟨⟨inv_abc, by decide, by decide, abc_message.defined⟩, inv_abcEmit, by decide, by decide, abc_message.defined⟩

end Sys2Proof.Tests
end

section
/-! PROOF (O1). The decoder is the pseudocode of 30_encoding.md R84 on the fields as numbers, and the legal words are the
words of the operations, host and sequencer apart. -/

namespace Sys2Proof

/-! ## The opcode map, row by row -/

theorem decodePlain_toOption (i : Instr) (idx : BitVec 6) :
    (decodePlain i idx).toOption = if idx.toNat = 0 then some i else none := by
  have hzero : idx = 0#6 ↔ idx.toNat = 0 := BitVec.toNat_inj.symm
  by_cases h : idx = 0#6
  · rw [decodePlain, if_pos h, if_pos (hzero.mp h)]; rfl
  · rw [decodePlain, if_neg h, if_neg (mt hzero.mpr h)]; rfl

theorem decodeBelow_toOption (n : Nat) [NeZero n] (f : Fin n → Instr) (idx : BitVec 6) :
    (decodeBelow n f idx).toOption = if idx.toNat < n then some (f (Fin.ofNat n idx.toNat)) else none := by
  by_cases h : idx.toNat < n
  · have hk : Fin.ofNat n idx.toNat = ⟨idx.toNat, h⟩ := Fin.ext (Nat.mod_eq_of_lt h)
    rw [decodeBelow, dif_pos h, if_pos h, hk]; rfl
  · rw [decodeBelow, dif_neg h, if_neg h]; rfl

theorem decodeWexp_toOption (idx : BitVec 6) :
    (decodeWexp idx).toOption = if 16 ≤ idx.toNat then some (.wexp (Fin.ofNat 64 idx.toNat)) else none := by
  by_cases h : 16 ≤ idx.toNat
  · have hk : Fin.ofNat 64 idx.toNat = ⟨idx.toNat, idx.isLt⟩ := Fin.ext (Nat.mod_eq_of_lt idx.isLt)
    rw [decodeWexp, if_pos h, if_pos h, hk]; rfl
  · rw [decodeWexp, if_neg h, if_neg h]; rfl

/-- One row of the map: the test of the index `c` inside the test of the opcode is one test `p` of both, when no later row
takes the opcode. -/
theorem toOption_row {opc o : BitVec 8} {c p : Prop} [Decidable c] [Decidable p] {d rest : Except DecodeReject Instr}
    {i : Instr} {later : Option Instr} (hd : d.toOption = if c then some i else none)
    (hp : p ↔ opc.toNat = o.toNat ∧ c) (hlater : opc.toNat = o.toNat → later = none) (hrest : rest.toOption = later) :
    (if opc = o then d else rest).toOption = if p then some i else later := by
  by_cases h : opc = o
  · have ho : opc.toNat = o.toNat := congrArg BitVec.toNat h
    have hpc : p ↔ c := hp.trans (and_iff_right ho)
    simp only [if_pos h, hd, hpc, hlater ho]
  · have hnp : ¬p := fun hp' => h (BitVec.eq_of_toNat_eq (hp.mp hp').1)
    rw [if_neg h, if_neg hnp, hrest]

/-- The rows of the pseudocode of 30_encoding.md R84 on the numbers of a word whose `z` is 0. -/
def opcodeRows (opc idx : Nat) : Option Instr :=
  if opc = 0x01 ∧ idx = 0 then some .setlen
  else if opc = 0x02 ∧ idx = 0 then some .start
  else if opc = 0x03 ∧ idx = 0 then some .getst
  else if opc = 0x04 ∧ idx ≤ 7 then some (.getw (Fin.ofNat 8 idx))
  else if opc = 0x05 ∧ idx ≤ 31 then some (.getb (Fin.ofNat 32 idx))
  else if opc = 0x06 then some (.getx (Fin.ofNat 64 idx))
  else if opc = 0x10 ∧ idx = 0 then some .finit
  else if opc = 0x11 ∧ idx = 0 then some .frame
  else if opc = 0x20 ∧ idx ≤ 15 then some (.wload (Fin.ofNat 16 idx))
  else if opc = 0x21 ∧ 16 ≤ idx then some (.wexp (Fin.ofNat 64 idx))
  else if opc = 0x30 ∧ idx = 0 then some .hinit
  else if opc = 0x31 ∧ idx = 0 then some .seed
  else if opc = 0x32 then some (.round (Fin.ofNat 64 idx))
  else if opc = 0x33 ∧ idx = 0 then some .fold
  else if opc = 0x34 ∧ idx = 0 then some .emit
  else none

theorem decodeOpc_toOption (opc : BitVec 8) (idx : BitVec 6) :
    (decodeOpc opc idx).toOption = opcodeRows opc.toNat idx.toNat := by
  have hidx : idx.toNat < 64 := idx.isLt
  unfold decodeOpc opcodeRows
  refine toOption_row (decodePlain_toOption ..) Iff.rfl (fun h => by simp [h]) ?_
  refine toOption_row (decodePlain_toOption ..) Iff.rfl (fun h => by simp [h]) ?_
  refine toOption_row (decodePlain_toOption ..) Iff.rfl (fun h => by simp [h]) ?_
  refine toOption_row (decodeBelow_toOption ..) (and_congr_right' Nat.lt_succ_iff.symm) (fun h => by simp [h]) ?_
  refine toOption_row (decodeBelow_toOption ..) (and_congr_right' Nat.lt_succ_iff.symm) (fun h => by simp [h]) ?_
  refine toOption_row (decodeBelow_toOption ..) (and_iff_left hidx).symm (fun h => by simp [h]) ?_
  refine toOption_row (decodePlain_toOption ..) Iff.rfl (fun h => by simp [h]) ?_
  refine toOption_row (decodePlain_toOption ..) Iff.rfl (fun h => by simp [h]) ?_
  refine toOption_row (decodeBelow_toOption ..) (and_congr_right' Nat.lt_succ_iff.symm) (fun h => by simp [h]) ?_
  refine toOption_row (decodeWexp_toOption ..) Iff.rfl (fun h => by simp [h]) ?_
  refine toOption_row (decodePlain_toOption ..) Iff.rfl (fun h => by simp [h]) ?_
  refine toOption_row (decodePlain_toOption ..) Iff.rfl (fun h => by simp [h]) ?_
  refine toOption_row (decodeBelow_toOption ..) (and_iff_left hidx).symm (fun h => by simp [h]) ?_
  refine toOption_row (decodePlain_toOption ..) Iff.rfl (fun h => by simp [h]) ?_
  refine toOption_row (decodePlain_toOption ..) Iff.rfl (fun _ => rfl) ?_
  split <;> rfl

/-- 30_encoding.md R84, the field `z` included. -/
theorem decode_toOption (w : OpWord) :
    (decode w).toOption =
      if w.toNat / 64 % 4 ≠ 0 then none else opcodeRows (w.toNat / 256) (w.toNat % 64) := by
  have hz : zField w ≠ 0#2 ↔ w.toNat / 64 % 4 ≠ 0 := by rw [ne_eq, ← BitVec.toNat_inj, zField_toNat]; rfl
  rw [← opcField_toNat, ← idxField_toNat, ← decodeOpc_toOption]
  by_cases h : zField w ≠ 0#2
  · rw [decode, if_pos h, if_pos (hz.mp h)]; rfl
  · rw [decode, if_neg h, if_neg (mt hz.mpr h)]

/-! ## The legal words are the words of the operations -/

theorem decodeBelow_ofNat {n : Nat} (hn : n ≤ 64) (f : Fin n → Instr) (k : Fin n) :
    decodeBelow n f (BitVec.ofNat 6 k.val) = .ok (f k) := by
  have hk : (BitVec.ofNat 6 k.val).toNat = k.val := by
    rw [BitVec.toNat_ofNat, Nat.mod_eq_of_lt (Nat.lt_of_lt_of_le k.isLt hn)]
  simp [decodeBelow, hk]

theorem decodeWexp_ofNat {k : Fin 64} (h : 16 ≤ k.val) : decodeWexp (BitVec.ofNat 6 k.val) = .ok (.wexp k) := by
  have hk : (BitVec.ofNat 6 k.val).toNat = k.val := by
    rw [BitVec.toNat_ofNat, Nat.mod_eq_of_lt k.isLt]
  simp only [decodeWexp, hk, if_pos h]

/-- Every well-formed operation decodes from its own word (30_encoding.md R82, R83). -/
theorem decode_encode {i : Instr} (h : i.wf = true) : decode (encode i) = .ok i := by
  cases i with
  | getw k => exact (decode_mkWord ..).trans (decodeBelow_ofNat (by decide) _ k)
  | getb k => exact (decode_mkWord ..).trans (decodeBelow_ofNat (by decide) _ k)
  | getx k => exact (decode_mkWord ..).trans (decodeBelow_ofNat (by decide) _ k)
  | wload k => exact (decode_mkWord ..).trans (decodeBelow_ofNat (by decide) _ k)
  | wexp k => exact (decode_mkWord ..).trans (decodeWexp_ofNat (of_decide_eq_true h))
  | round k => exact (decode_mkWord ..).trans (decodeBelow_ofNat (by decide) _ k)
  | _ => rfl

/-- Decoding and encoding are inverse on the well-formed operations. -/
theorem decode_eq_ok_iff (w : OpWord) (i : Instr) : decode w = .ok i ↔ i.wf = true ∧ encode i = w := by
  constructor
  · intro h
    obtain ⟨hz, hopc⟩ := decode_ok h
    obtain ⟨henc, hwf⟩ := decodeOpc_ok hopc
    exact ⟨hwf, by rw [← henc, mkWord_fields w hz]⟩
  · rintro ⟨hwf, rfl⟩
    exact decode_encode hwf

namespace Machine

/-- The host operations, in the order of their words. -/
def hostInstrs : List Instr := List.flatten [
  [.setlen, .start, .getst], (List.finRange 8).map .getw, (List.finRange 32).map .getb, (List.finRange 64).map .getx]

/-- The well-formed sequencer operations, in the order of `sequencerWords`. -/
def sequencerInstrs : List Instr := List.flatten [
  [.finit, .hinit, .frame], (List.finRange 16).map .wload, (List.finRange 48).map fun k => .wexp (k.natAdd 16),
  [.seed], (List.finRange 64).map .round, [.fold, .emit]]

theorem hostWords_eq : hostWords = hostInstrs.map encode := by decide +kernel

theorem sequencerWords_eq : sequencerWords = sequencerInstrs.map encode := by decide +kernel

theorem mem_hostInstrs (i : Instr) : i ∈ hostInstrs ↔ i.wf = true ∧ i.issuer = .host := by
  cases i <;> simp [hostInstrs, Instr.wf, Instr.issuer]

theorem exists_natAdd_eq (k : Fin 64) : (∃ j : Fin 48, Fin.natAdd 16 j = k) ↔ 16 ≤ k.val := by
  constructor
  · rintro ⟨j, rfl⟩
    exact Nat.le_add_right 16 j.val
  · intro h
    exact ⟨k.subNat 16 h, Fin.natAdd_subNat_cast h⟩

theorem mem_sequencerInstrs (i : Instr) : i ∈ sequencerInstrs ↔ i.wf = true ∧ i.issuer = .sequencer := by
  cases i with
  | wexp k => simp [sequencerInstrs, Instr.wf, Instr.issuer, exists_natAdd_eq]
  | _ => simp [sequencerInstrs, Instr.wf, Instr.issuer]

/-- A list of the encodings of an issuer's operations holds the words that decode to one of them. -/
theorem exists_issuer_iff_mem_words {words : List OpWord} {instrs : List Instr} {a : Issuer} (hwords : words = instrs.map encode)
    (hinstrs : ∀ i, i ∈ instrs ↔ i.wf = true ∧ i.issuer = a) (w : OpWord) :
    (∃ i, decode w = .ok i ∧ i.issuer = a) ↔ w ∈ words := by
  rw [hwords, List.mem_map]
  refine exists_congr fun i => ?_
  rw [decode_eq_ok_iff, hinstrs, and_right_comm]

theorem exists_host_iff_mem_hostWords (w : OpWord) : (∃ i, decode w = .ok i ∧ i.issuer = .host) ↔ w ∈ hostWords :=
  exists_issuer_iff_mem_words hostWords_eq mem_hostInstrs w

theorem exists_sequencer_iff_mem_sequencerWords (w : OpWord) :
    (∃ i, decode w = .ok i ∧ i.issuer = .sequencer) ↔ w ∈ sequencerWords :=
  exists_issuer_iff_mem_words sequencerWords_eq mem_sequencerInstrs w

/-- Settles O1: the rows of the map one by one, and the lists of legal words as the encodings of the operations. -/
theorem decodeIsTheOpcodeMap : Obligations.DecodeIsTheOpcodeMap :=
  ⟨decode_toOption, exists_host_iff_mem_hostWords, exists_sequencer_iff_mem_sequencerWords,
    by decide +kernel, rfl, by decide +kernel, rfl⟩

end Machine

end Sys2Proof
end

section
/-! PROOF (O43). The sequencer's order of 30_encoding.md R88: the legal positions are the sequencer operations' words, each
operation leaves `pc` at the successor of its own word, and only START leaves position 0. -/

namespace Sys2Proof.Machine

/-! ## The legal positions -/

theorem legalPc_iff (pc : OpWord) :
    legalPc pc = true ↔ pc = 0#16 ∨ ∃ i, decode pc = .ok i ∧ i.issuer = .sequencer := by
  rw [exists_sequencer_iff_mem_sequencerWords, legalPc, decide_eq_true_iff]

/-- A sequencer step from a legal position: halted, or the operation in `pc`; never InvariantFault. -/
theorem sequencerStep_legal {s : State} (h : legalPc s.pc = true) :
    (s.pc = 0#16 ∧ sequencerStep s = .next s) ∨
    ∃ i, i.wf = true ∧ i.issuer = .sequencer ∧ encode i = s.pc ∧ sequencerStep s = exec i s := by
  rcases (legalPc_iff s.pc).mp h with h0 | ⟨i, hd, hi⟩
  · exact .inl ⟨h0, if_pos h0⟩
  · obtain ⟨hwf, henc⟩ := (decode_eq_ok_iff s.pc i).mp hd
    exact .inr ⟨i, hwf, hi, henc, sequencerStep_of_decode hd hi⟩

/-! ## The successor of an operation -/

theorem nextPosition_wload (k : Fin 16) (more : Bool) :
    nextPosition 0x2000#16 k.val 15 0x2110#16 = successorOf (encode (.wload k)) more := by
  revert k more
  decide

theorem nextPosition_wexp {k : Fin 64} (h : 16 ≤ k.val) (more : Bool) :
    nextPosition 0x2100#16 k.val 63 0x3100#16 = successorOf (encode (.wexp k)) more := by
  revert k more
  decide

theorem nextPosition_round (k : Fin 64) (more : Bool) :
    nextPosition 0x3200#16 k.val 63 0x3300#16 = successorOf (encode (.round k)) more := by
  revert k more
  decide

/-- A sequencer operation that completes leaves `pc` at the successor of its word. -/
theorem exec_pc {i : Instr} {s t : State} (hwf : i.wf = true) (hi : i.issuer = .sequencer) (h : exec i s = .next t) :
    t.pc = successorOf (encode i) (decide (s.BI.toNat < s.NBLK.toNat)) := by
  cases i with
  | frame =>
    obtain ⟨⟨blk, rfl⟩, -⟩ := execFrame_next h
    rfl
  | wload k =>
    cases h
    exact nextPosition_wload k _
  | wexp k =>
    have hk : 16 ≤ k.val := of_decide_eq_true hwf
    simp only [exec, execWexp, if_pos hk] at h
    cases h
    exact nextPosition_wexp hk _
  | round k =>
    cases h
    exact nextPosition_round k _
  | fold =>
    cases h
    simp [encode, mkWord, successorOf]
  | finit => cases h; rfl
  | hinit => cases h; rfl
  | seed => cases h; rfl
  | emit => cases h; rfl
  | _ => cases hi

theorem sequencerStep_pc {s t : State} (hpc : legalPc s.pc = true) (h : sequencerStep s = .next t) :
    t.pc = successorOf s.pc (decide (s.BI.toNat < s.NBLK.toNat)) := by
  rcases sequencerStep_legal hpc with ⟨h0, hs⟩ | ⟨i, hwf, hi, henc, hs⟩
  · rw [hs] at h
    cases h
    rw [h0]
    rfl
  · rw [← henc]
    exact exec_pc hwf hi (hs.symm.trans h)

theorem sequencerStep_completes {s : State} (hpc : legalPc s.pc = true) (hframe : s.pc ≠ 0x1100#16) :
    ∃ t, sequencerStep s = .next t := by
  rcases sequencerStep_legal hpc with ⟨-, hs⟩ | ⟨i, -, -, henc, hs⟩
  · exact ⟨s, hs⟩
  · have hi : i ≠ .frame := by
      rintro rfl
      exact hframe henc.symm
    rw [hs]
    exact exec_completes i s hi

/-! ## The way out of position 0 -/

/-- A host transaction moves `pc` only by START, to FINIT. -/
theorem hostTransaction_moves_pc {opw : OpWord} {s t : State} (h : hostTransaction opw s = .next t) (hne : t.pc ≠ s.pc) :
    opw = 0x0200#16 ∧ t.pc = 0x1000#16 := by
  rcases hostTransaction_cases opw s with ⟨-, ht⟩ | ⟨i, hd, hi, ht⟩
  · cases ht.symm.trans h
    exact absurd rfl hne
  rcases exec_host_cases s hi with ⟨r, he⟩ | ⟨-, -, -, he⟩ | ⟨-, -, rfl, he⟩
  · cases (ht.trans he).symm.trans h
    exact absurd rfl hne
  · cases (ht.trans he).symm.trans h
    exact absurd rfl hne
  · cases (ht.trans he).symm.trans h
    exact ⟨((decode_eq_ok_iff opw .start).mp hd).2.symm, rfl⟩

/-- Settles O43: each operation's successor, completion of all but FRAME, and START as the one way out of position 0. -/
theorem successorOfEveryPosition : Obligations.SuccessorOfEveryPosition :=
  ⟨fun _ _ => sequencerStep_pc, fun _ => sequencerStep_completes,
    fun _ _ _ h0 h hne => hostTransaction_moves_pc h (h0 ▸ hne)⟩

end Sys2Proof.Machine
end

section
/-! PROOF (O22, O41, O21). The framer of 40_framer.md: the block count and the padding of R102 as arithmetic on the length, the
four cases of PaddedByte (R104) and FRAME through them, and FINIT (R101). -/

namespace Sys2Proof.Machine

/-! ## The block count and the padding -/

theorem zeroCount_le (L : Nat) : zeroCount L ≤ 63 := Nat.le_of_lt_succ (Nat.mod_lt _ (by decide))

/-- `k` is `(55 - L) mod 64`, on the integers. -/
theorem zeroCount_modEq (L : Nat) : ((zeroCount L : Int) - (55 - (L : Int))) % 64 = 0 := by
  rw [zeroCount]
  omega

/-- The Message, the `0x80` byte, `k` zero bytes and the length field fill the blocks exactly. -/
theorem blockCount_mul (len : DWord) : 64 * (blockCount len).toNat = len.toNat + 1 + zeroCount len.toNat + 8 := by
  rw [blockCount_toNat, zeroCount]
  omega

/-- Counts that fill whole blocks differ by multiples of 64, and `k` is below 64: no smaller count does. -/
theorem zeroCount_minimal {L k : Nat} (hk : k < zeroCount L) : (L + 1 + k + 8) % 64 ≠ 0 := by
  have hle := zeroCount_le L
  have hmod := zeroCount_modEq L
  omega

theorem blockCount_eq_blocksFor (len : DWord) : (blockCount len).toNat = blocksFor len.toNat := by
  rw [blockCount_toNat, blocksFor]
  omega

/-- The length field begins above LEN, so the cases of R104 are exclusive. -/
theorem length_lt_lengthField (len : DWord) : len.toNat + 8 < 64 * (blockCount len).toNat := by
  rw [blockCount_mul]
  omega

theorem blockCount_of_mod_le {len : DWord} (h : len.toNat % 64 ≤ 55) : (blockCount len).toNat = len.toNat / 64 + 1 := by
  rw [blockCount_toNat]
  omega

theorem blockCount_of_le_mod {len : DWord} (h : 56 ≤ len.toNat % 64) : (blockCount len).toNat = len.toNat / 64 + 2 := by
  rw [blockCount_toNat]
  omega

/-- Settles O41: the block count from its number, the padding from the exact fill of the blocks. -/
theorem blockCountAndPadding : Obligations.BlockCountAndPadding := fun len =>
  ⟨blockCount_toNat len, blockCount_eq_blocksFor len, blockCount_eq_blocksFor len, blockCount_mul len, zeroCount_le _,
    zeroCount_modEq _, fun _ => zeroCount_minimal, length_lt_lengthField len, blockCount_of_mod_le, blockCount_of_le_mod⟩

/-! ## The cases of PaddedByte -/

/-- A byte that PaddedByte gives below LEN is the one MSG has there. -/
theorem read_of_paddedByte {s : State} {free p : Nat} {b : Byte} (hp : p < s.LEN.toNat)
    (h : paddedByte s free p = .ok b) : s.msg.read p = some b := by
  cases hr : s.msg.read p with
  | none => simp [paddedByte, hp, hr] at h
  | some c =>
    rw [paddedByte_message hp hr] at h
    rw [Except.ok.inj h]

theorem paddedByte_marker (s : State) (free : Nat) : paddedByte s free s.LEN.toNat = .ok 0x80#8 := by
  simp [paddedByte]

theorem paddedByte_zero {s : State} (free : Nat) {p : Nat} (hlen : s.LEN.toNat < p) (hp : p + 8 < 64 * s.NBLK.toNat) :
    paddedByte s free p = .ok 0x00#8 := by
  rw [paddedByte, paddedLength, if_neg (by omega), if_neg (by omega), if_pos hp]

theorem paddedByte_lengthField {s : State} (free : Nat) {p : Nat} (hlen : s.LEN.toNat < p)
    (hlo : 64 * s.NBLK.toNat ≤ p + 8) (hhi : p < 64 * s.NBLK.toNat) :
    paddedByte s free p = .ok (bigEndianByte s.BITLEN (p + 8 - 64 * s.NBLK.toNat)) := by
  rw [paddedByte, paddedLength, if_neg (by omega), if_neg (by omega), if_neg (Nat.not_lt.mpr hlo), if_pos hhi]

/-- A byte that PaddedByte gives below PLEN, by the four cases of R104. -/
theorem paddedByte_ok_cases {s : State} {free p : Nat} {b : Byte} (h : paddedByte s free p = .ok b)
    (hp : p < 64 * s.NBLK.toNat) :
    (p < s.LEN.toNat → s.msg.read p = some b) ∧
    (p = s.LEN.toNat → b = 0x80#8) ∧
    (s.LEN.toNat < p → p + 8 < 64 * s.NBLK.toNat → b = 0x00#8) ∧
    (s.LEN.toNat < p → 64 * s.NBLK.toNat ≤ p + 8 →
      b.toNat = s.BITLEN.toNat / 2 ^ (56 - 8 * (p + 8 - 64 * s.NBLK.toNat)) % 256) := by
  have value : ∀ {c : Byte}, paddedByte s free p = .ok c → b = c := fun hc => Except.ok.inj (h.symm.trans hc)
  refine ⟨fun hlt => read_of_paddedByte hlt h, ?_, fun hlt h8 => value (paddedByte_zero free hlt h8), fun hlt h8 => ?_⟩
  · rintro rfl
    exact value (paddedByte_marker s free)
  · rw [value (paddedByte_lengthField free hlt h8 hp), bigEndianByte_toNat]

/-! ## FRAME and FINIT -/

/-- While a block remains the block counter does not overflow. -/
theorem execFrame_BI {s t : State} (h : execFrame s = .next t) (hmore : s.BI.toNat < s.NBLK.toNat) :
    t.BI.toNat = s.BI.toNat + 1 := by
  obtain ⟨⟨blk, rfl⟩, -⟩ := execFrame_next h
  have hlt := s.NBLK.isLt
  change (BitVec.ofNat 64 (s.BI.toNat + 1)).toNat = s.BI.toNat + 1
  rw [BitVec.toNat_ofNat, Nat.mod_eq_of_lt (by omega)]

theorem execFrame_frame {s t : State} (h : execFrame s = .next t) :
    t = { s with BLK := t.BLK, BI := t.BI, freeCount := t.freeCount, pc := 0x2000#16 } := by
  obtain ⟨⟨blk, rfl⟩, -⟩ := execFrame_next h
  rfl

/-- Settles O22: FRAME fills its block with PaddedByte, whose value below PLEN is given by the four cases. -/
theorem frameProducesTheNextBlock : Obligations.FrameProducesTheNextBlock := by
  refine ⟨rfl, rfl, fun s hdefined => ?_⟩
  obtain ⟨t, ht⟩ := execFrame_completes (s := s) fun j hj hlt => hdefined _ (by omega) (by omega) hlt
  obtain ⟨-, hbytes⟩ := execFrame_next ht
  refine ⟨t, ht, execFrame_frame ht, execFrame_BI ht, fun j hj hp => ?_⟩
  obtain ⟨hmsg, hmarker, hzero, hlength⟩ := paddedByte_ok_cases (hbytes j hj) hp
  exact ⟨hmsg, hmarker, hzero, hlength, fun hblk => hblk ▸ length_lt_lengthField s.LEN⟩

/-- Settles O21: FINIT is one update of the state, and the two lengths are known as numbers. -/
theorem finitComputesTheLengths : Obligations.FinitComputesTheLengths :=
  ⟨rfl, rfl, fun s => ⟨_, rfl, rfl, bitLength_toNat s.LEN, blockCount_toNat s.LEN⟩⟩

end Sys2Proof.Machine
end

section
/-! PROOF (O33, O25, O26). The expander of 41_schedule_expander.md: the small sigma functions bit by bit (R122), and the words,
the reserved indices and the schedule word of WLOAD (R121) and WEXP (R123). -/

namespace Sys2Proof

/-! ## The words of one opcode -/

/-- The word of an indexed operation is the opcode's first word plus the index, on words. -/
theorem encode_indexed {n : Nat} {f : Fin n → Instr} {opc : BitVec 8} (hn : n ≤ 64)
    (hf : ∀ k, encode (f k) = mkWord opc (BitVec.ofNat 6 k.val)) (k : Fin n) :
    encode (f k) = mkWord opc 0#6 + BitVec.ofNat 16 k.val := by
  have hk := k.isLt
  have hopc := opc.isLt
  apply BitVec.eq_of_toNat_eq
  rw [Machine.encode_indexed_toNat hn hf, BitVec.toNat_add, mkWord_toNat, BitVec.toNat_ofNat, BitVec.toNat_ofNat]
  omega

theorem encode_wload (i : Fin 16) : encode (.wload i) = 0x2000#16 + BitVec.ofNat 16 i.val :=
  encode_indexed (f := .wload) (opc := 0x20#8) (by decide) (fun _ => rfl) i

theorem encode_wexp (i : Fin 64) : encode (.wexp i) = 0x2100#16 + BitVec.ofNat 16 i.val :=
  encode_indexed (f := .wexp) (opc := 0x21#8) (by decide) (fun _ => rfl) i

/-- The 64 words with `z = 0` and a given opcode decode by the opcode map at their index. -/
theorem decode_eq_decodeOpc {w : OpWord} {opc : BitVec 8} (h : w.toNat / 64 = opc.toNat * 4) :
    decode w = decodeOpc opc (idxField w) := by
  have hw : w = mkWord opc (idxField w) := by
    apply BitVec.eq_of_toNat_eq
    rw [mkWord_toNat, idxField_toNat]
    omega
  exact (congrArg decode hw).trans (decode_mkWord ..)

theorem decodeBelow_reserved {n : Nat} (f : Fin n → Instr) {idx : BitVec 6} (h : n ≤ idx.toNat) :
    decodeBelow n f idx = .error .indexReserved := dif_neg (Nat.not_lt.mpr h)

theorem decodeWexp_reserved {idx : BitVec 6} (h : idx.toNat < 16) : decodeWexp idx = .error .indexReserved :=
  if_neg (Nat.not_le.mpr h)

/-- 30_encoding.md R85: a WLOAD index of 16 or more. -/
theorem decode_wload_reserved {w : OpWord} (hw : w.toNat / 64 = 0x2000 / 64) (hidx : 16 ≤ w.toNat % 64) :
    decode w = .error .indexReserved := by
  have hdecode : decode w = decodeBelow 16 .wload (idxField w) := decode_eq_decodeOpc (opc := 0x20#8) hw
  rw [hdecode, decodeBelow_reserved]
  rwa [idxField_toNat]

/-- 30_encoding.md R85: a WEXP index of 15 or less. -/
theorem decode_wexp_reserved {w : OpWord} (hw : w.toNat / 64 = 0x2100 / 64) (hidx : w.toNat % 64 ≤ 15) :
    decode w = .error .indexReserved := by
  have hdecode : decode w = decodeWexp (idxField w) := decode_eq_decodeOpc (opc := 0x21#8) hw
  rw [hdecode, decodeWexp_reserved]
  rw [idxField_toNat]
  omega

namespace Machine

/-! ## The small sigma functions -/

theorem rotr_eq_rotateRight (x : Word) {n : Nat} (hn : n < 32) : rotr x n = x.rotateRight n := by
  rw [rotr, BitVec.rotateRight_def, Nat.mod_eq_of_lt hn]

/-- 00_scope.md R10: a right rotation takes bit `j` from bit `j + n`, mod 32. -/
theorem rotr_getLsbD (x : Word) {n j : Nat} (hn : n < 32) (hj : j < 32) :
    (rotr x n).getLsbD j = x.getLsbD ((j + n) % 32) := by
  rw [rotr_eq_rotateRight x hn, BitVec.getLsbD_rotateRight, Nat.mod_eq_of_lt hn]
  by_cases hwrap : j < 32 - n
  · have hbit : (j + n) % 32 = n + j := by omega
    simp [hwrap, hbit]
  · have hbit : (j + n) % 32 = j - (32 - n) := by omega
    simp [hwrap, hj, hbit]

/-- A logical right shift has no bit to take where `j + n` runs past the top. -/
theorem ushiftRight_getLsbD (x : Word) (n j : Nat) :
    (x >>> n).getLsbD j = (decide (j + n < 32) && x.getLsbD (j + n)) := by
  rw [BitVec.getLsbD_ushiftRight, Nat.add_comm n j]
  by_cases h : j + n < 32
  · simp [h]
  · simp [h, BitVec.getLsbD_of_ge x (j + n) (Nat.not_lt.mp h)]

theorem ssig0_getLsbD (x : Word) {j : Nat} (hj : j < 32) :
    (ssig0 x).getLsbD j =
      ((x.getLsbD ((j + 7) % 32) ^^ x.getLsbD ((j + 18) % 32)) ^^ (decide (j + 3 < 32) && x.getLsbD (j + 3))) := by
  rw [ssig0, BitVec.getLsbD_xor, BitVec.getLsbD_xor, rotr_getLsbD x (by decide) hj, rotr_getLsbD x (by decide) hj,
    ushiftRight_getLsbD]

theorem ssig1_getLsbD (x : Word) {j : Nat} (hj : j < 32) :
    (ssig1 x).getLsbD j =
      ((x.getLsbD ((j + 17) % 32) ^^ x.getLsbD ((j + 19) % 32)) ^^ (decide (j + 10 < 32) && x.getLsbD (j + 10))) := by
  rw [ssig1, BitVec.getLsbD_xor, BitVec.getLsbD_xor, rotr_getLsbD x (by decide) hj, rotr_getLsbD x (by decide) hj,
    ushiftRight_getLsbD]

/-- Settles O33: each function is the exclusive or of two rotations and a shift, whose bits are known. -/
theorem smallSigmaBits : Obligations.SmallSigmaBits :=
  fun x _ hj => ⟨ssig0_getLsbD x hj, ssig1_getLsbD x hj⟩

/-! ## WLOAD and WEXP -/

theorem blockWord_toNat (B : Vector Byte 64) (i : Fin 16) :
    (blockWord B i).toNat = B[4 * i.val].toNat * 2 ^ 24 + B[4 * i.val + 1].toNat * 2 ^ 16 +
      B[4 * i.val + 2].toNat * 2 ^ 8 + B[4 * i.val + 3].toNat := bigEndianWord_toNat ..

/-- The three sums mod 2^32 are one sum mod 2^32. -/
theorem expandWord_toNat (w16 w15 w7 w2 : Word) :
    (expandWord w16 w15 w7 w2).toNat = (w16.toNat + (ssig0 w15).toNat + w7.toNat + (ssig1 w2).toNat) % 2 ^ 32 := by
  rw [expandWord, BitVec.toNat_add, BitVec.toNat_add, BitVec.toNat_add]
  omega

/-- WLOAD sets one schedule word and advances. -/
theorem exec_wload (i : Fin 16) (s : State) :
    exec (.wload i) s =
      .next ({ s with W := s.W.set i.val (blockWord s.BLK i) }.goto (nextPosition 0x2000#16 i.val 15 0x2110#16)) := rfl

/-- WEXP in its range sets one schedule word and advances. -/
theorem exec_wexp {i : Fin 64} (hi : 16 ≤ i.val) (s : State) :
    exec (.wexp i) s =
      .next ({ s with
        W := s.W.set i.val (expandWord s.W[i.val - 16] s.W[i.val - 15] s.W[i.val - 7] s.W[i.val - 2]) }.goto
        (nextPosition 0x2100#16 i.val 63 0x3100#16)) := if_pos hi

/-- Settles O25: WLOAD is one update of W, whose new word is the big-endian word of four bytes of BLK. -/
theorem wloadAssemblesAWord : Obligations.WloadAssemblesAWord := by
  refine ⟨fun i s => ⟨encode_wload i, rfl, _, exec_wload i s, rfl, ?_, fun j _ hj => ?_⟩,
    fun _ => decode_wload_reserved⟩
  · rw [State.goto_W, Vector.getElem_set_self, blockWord_toNat]
  · rw [State.goto_W, Vector.getElem_set_ne _ _ hj.symm]

/-- Settles O26: WEXP in its range is one update of W, whose new word is the sum of R123 over the old W. -/
theorem wexpExpandsAWord : Obligations.WexpExpandsAWord := by
  refine ⟨fun i s hi => ⟨encode_wexp i, rfl, _, exec_wexp hi s, rfl, ?_, fun j _ hj => ?_⟩,
    fun _ => decode_wexp_reserved⟩
  · rw [State.goto_W, Vector.getElem_set_self, expandWord_toNat, ssig0, ssig1]
  · rw [State.goto_W, Vector.getElem_set_ne _ _ hj.symm]

end Machine

end Sys2Proof
end

section
/-! PROOF (O34, O35, O36, O37, O29, O30, O27, O28, O31). The round pipeline of 42_round_pipeline.md: its functions bit by bit
(R143 to R145), the digest bytes (R149), the round and the fold as sums mod 2^32 (R146, R147), and the operations HINIT, SEED,
ROUND, FOLD and EMIT. -/

namespace Sys2Proof

theorem encode_round (i : Fin 64) : encode (.round i) = 0x3200#16 + BitVec.ofNat 16 i.val :=
  encode_indexed (f := .round) (opc := 0x32#8) (by decide) (fun _ => rfl) i

namespace Machine

/-! ## The big sigma functions, choice and majority -/

/-- An exclusive or of three right rotations, bit by bit. -/
theorem rotr_xor_rotr_xor_rotr_getLsbD (x : Word) {n1 n2 n3 j : Nat} (h1 : n1 < 32) (h2 : n2 < 32) (h3 : n3 < 32)
    (hj : j < 32) :
    (rotr x n1 ^^^ rotr x n2 ^^^ rotr x n3).getLsbD j =
      ((x.getLsbD ((j + n1) % 32) ^^ x.getLsbD ((j + n2) % 32)) ^^ x.getLsbD ((j + n3) % 32)) := by
  rw [BitVec.getLsbD_xor, BitVec.getLsbD_xor, rotr_getLsbD x h1 hj, rotr_getLsbD x h2 hj, rotr_getLsbD x h3 hj]

/-- Settles O34: both functions are exclusive ors of three rotations. -/
theorem bigSigmaBits : Obligations.BigSigmaBits := fun x _ hj =>
  ⟨rotr_xor_rotr_xor_rotr_getLsbD x (by decide) (by decide) (by decide) hj,
    rotr_xor_rotr_xor_rotr_getLsbD x (by decide) (by decide) (by decide) hj⟩

theorem ch_getLsbD (e f g : Word) {j : Nat} (hj : j < 32) :
    (ch e f g).getLsbD j = ((e.getLsbD j && f.getLsbD j) ^^ (!e.getLsbD j && g.getLsbD j)) := by
  simp only [ch, BitVec.getLsbD_xor, BitVec.getLsbD_and, BitVec.getLsbD_not, hj, decide_true, Bool.true_and]

theorem maj_getLsbD (a b c : Word) (j : Nat) :
    (maj a b c).getLsbD j =
      (((a.getLsbD j && b.getLsbD j) ^^ (a.getLsbD j && c.getLsbD j)) ^^ (b.getLsbD j && c.getLsbD j)) := by
  simp only [maj, BitVec.getLsbD_xor, BitVec.getLsbD_and]

/-- Settles O35: by the bit of `e`, one of the two terms of choice is 0 and the other is the bit selected. -/
theorem choiceSelectsBits : Obligations.ChoiceSelectsBits := by
  intro e f g j hj
  rw [ch_getLsbD e f g hj]
  cases e.getLsbD j with
  | true => simp
  | false => simp

/-- Three bits have an odd number of pairs of ones exactly when at least two of them are one. -/
theorem xor_of_pairs_iff_two_le : ∀ x y z : Bool,
    (((x && y) ^^ (x && z)) ^^ (y && z)) = true ↔ 2 ≤ x.toNat + y.toNat + z.toNat := by
  decide

/-- Settles O36: a bit of majority is the exclusive or of the three pairs of bits. -/
theorem majorityOfBits : Obligations.MajorityOfBits := by
  intro a b c j _
  rw [maj_getLsbD, xor_of_pairs_iff_two_le]

/-! ## The digest bytes -/

/-- Byte `k` of word `w`, from the most significant down. -/
theorem digestByte_of_word (H : Vector Word 8) (w : Fin 8) {k : Nat} (hk : k < 4) :
    (digestByte H (Fin.ofNat 32 (4 * w.val + k))).toNat = H[w].toNat / 2 ^ (24 - 8 * k) % 256 := by
  have hval : (Fin.ofNat 32 (4 * w.val + k)).val = 4 * w.val + k := Nat.mod_eq_of_lt (by omega)
  have hword : (4 * w.val + k) / 4 = w.val := by omega
  have hbyte : (4 * w.val + k) % 4 = k := by omega
  simp only [digestByte_toNat, hval, hword, hbyte, Fin.getElem_fin]

/-- A word is its four bytes in order. -/
theorem toNat_eq_four_bytes (x : Word) :
    x.toNat = x.toNat / 2 ^ 24 % 256 * 2 ^ 24 + x.toNat / 2 ^ 16 % 256 * 2 ^ 16 + x.toNat / 2 ^ 8 % 256 * 2 ^ 8 +
      x.toNat / 2 ^ 0 % 256 := by
  have hx := x.isLt
  omega

/-- Settles O37: each digest byte as a number, and the four bytes of a word. -/
theorem digestBytesAreBigEndian : Obligations.DigestBytesAreBigEndian := by
  refine fun H => ⟨digestByte_toNat H, fun w => ?_⟩
  have h0 := digestByte_of_word H w (k := 0) (by decide)
  have h1 := digestByte_of_word H w (k := 1) (by decide)
  have h2 := digestByte_of_word H w (k := 2) (by decide)
  have h3 := digestByte_of_word H w (k := 3) (by decide)
  rw [Nat.add_zero] at h0
  rw [h0, h1, h2, h3]
  exact toNat_eq_four_bytes H[w]

/-! ## The round and the fold -/

theorem temp1_toNat (V : Vector Word 8) (k w : Word) :
    (temp1 V k w).toNat =
      (V[7].toNat + (bsig1 V[4]).toNat + (ch V[4] V[5] V[6]).toNat + k.toNat + w.toNat) % 2 ^ 32 := by
  rw [temp1, BitVec.toNat_add, BitVec.toNat_add, BitVec.toNat_add, BitVec.toNat_add]
  omega

theorem temp2_toNat (V : Vector Word 8) :
    (temp2 V).toNat = ((bsig0 V[0]).toNat + (maj V[0] V[1] V[2]).toNat) % 2 ^ 32 := BitVec.toNat_add ..

/-- The new `a` of a round. -/
theorem roundVars_zero_toNat (V : Vector Word 8) (k w : Word) :
    (roundVars V k w)[0].toNat = ((temp1 V k w).toNat + (temp2 V).toNat) % 2 ^ 32 := BitVec.toNat_add ..

/-- The new `e` of a round. -/
theorem roundVars_four_toNat (V : Vector Word 8) (k w : Word) :
    (roundVars V k w)[4].toNat = (V[3].toNat + (temp1 V k w).toNat) % 2 ^ 32 := BitVec.toNat_add ..

/-- ROUND replaces the working variables and advances. -/
theorem exec_round (i : Fin 64) (s : State) :
    exec (.round i) s =
      .next ({ s with V := roundVars s.V Config.K[i] s.W[i] }.goto (nextPosition 0x3200#16 i.val 63 0x3300#16)) := rfl

/-- FOLD adds the working variables to the State and decides by `BI < NBLK`. -/
theorem exec_fold (s : State) :
    exec .fold s =
      .next ({ s with H := addLanes s.H s.V }.goto (if s.BI.toNat < s.NBLK.toNat then 0x1100#16 else 0x3400#16)) := rfl

/-- Settles O29: ROUND is one update of V, in which six variables move and `a` and `e` are sums of the old values. -/
theorem roundRotatesTheVariables : Obligations.RoundRotatesTheVariables := by
  refine fun i s => ⟨encode_round i, rfl, _, exec_round i s, rfl, rfl, rfl, rfl, ?_, rfl, rfl, rfl, ?_⟩
  · rw [State.goto_V, roundVars_four_toNat, temp1_toNat, bsig1, ch]
  · rw [State.goto_V, roundVars_zero_toNat, temp1_toNat, temp2_toNat, bsig1, ch, bsig0, maj]

/-- Settles O30: FOLD is one update of H, each lane of which is a sum mod 2^32. -/
theorem foldAddsAndDecides : Obligations.FoldAddsAndDecides := by
  refine ⟨rfl, rfl, fun s => ⟨_, exec_fold s, rfl, fun j hj => ?_⟩⟩
  rw [State.goto_H, addLanes_getElem, BitVec.toNat_add]

/-! ## HINIT, SEED and EMIT -/

/-- HINIT replaces the State by IV and goes to FRAME. -/
theorem exec_hinit (s : State) : exec .hinit s = .next ({ s with H := Config.IV }.goto 0x1100#16) := rfl

/-- SEED copies the State to the working variables and goes to the first round. -/
theorem exec_seed (s : State) : exec .seed s = .next ({ s with V := s.H }.goto 0x3200#16) := rfl

/-- EMIT sets DONE and halts. -/
theorem exec_emit (s : State) : exec .emit s = .next ({ s with DONE := true }.goto 0x0000#16) := rfl

/-- Settles O27: HINIT is one update of H. -/
theorem hinitLoadsTheInitialState : Obligations.HinitLoadsTheInitialState :=
  ⟨rfl, rfl, fun s => ⟨_, exec_hinit s, rfl, fun _ _ => rfl⟩⟩

/-- Settles O28: SEED is one update of V. -/
theorem seedCopiesTheState : Obligations.SeedCopiesTheState :=
  ⟨rfl, rfl, fun s => ⟨_, exec_seed s, rfl, fun _ _ => rfl⟩⟩

/-- Halted, with the digest ready and neither a fault nor a cause, STATUS is 2. -/
theorem State.status_of_done {s : State} (hcause : s.CAUSE = 0#4) (hfault : s.FAULT = false) (hdone : s.DONE = true)
    (hbusy : s.busy = false) : s.status = 0x00000002#32 := by
  rw [State.status, hcause, hfault, hdone, hbusy]
  rfl

/-- A host transaction never touches the State. -/
theorem hostTransaction_keeps_H {opw : OpWord} {s u : State} (h : hostTransaction opw s = .next u) : u.H = s.H := by
  rcases hostTransaction_cases opw s with ⟨-, ht⟩ | ⟨i, -, hi, ht⟩
  · cases ht.symm.trans h
    rfl
  rcases exec_host_cases s hi with ⟨r, he⟩ | ⟨-, -, -, he⟩ | ⟨-, -, -, he⟩ <;>
  · cases (ht.trans he).symm.trans h
    rfl

/-- While the core is halted only a RESET touches the State, and RESET clears DONE. -/
theorem takeTurn_keeps_H_of_halted {turn : Turn} {s u : State} (hpc : s.pc = 0x0000#16) (h : takeTurn turn s = .next u)
    (hdone : u.DONE = true) : u.H = s.H := by
  cases turn with
  | hostOp opw din => exact hostTransaction_keeps_H (s := { s with din := din }) h
  | sequencer =>
    cases (if_pos hpc : sequencerStep s = .next s).symm.trans h
    rfl
  | reset =>
    cases h
    cases hdone
  | writeMsg offset b =>
    cases h
    rfl

/-- The same for a step, whichever turn it takes. -/
theorem step_keeps_H_of_halted {s u : State} (hpc : s.pc = 0x0000#16) (h : step s = .next u) (hdone : u.DONE = true) :
    u.H = s.H := by
  rcases step_cases s with ⟨-, hs⟩ | ⟨turn, rest, -, hs⟩
  · exact takeTurn_keeps_H_of_halted (turn := .sequencer) hpc (hs.symm.trans h) hdone
  · exact takeTurn_keeps_H_of_halted (s := { s with schedule := rest }) hpc (hs.symm.trans h) hdone

/-- Settles O31: EMIT is one update of DONE and pc; STATUS follows from the flags of a run, and DONE = 1 means halted. -/
theorem emitDeclaresTheDigest : Obligations.EmitDeclaresTheDigest := by
  refine ⟨rfl, rfl, fun s => ⟨_, exec_emit s, rfl, rfl, fun hinv hpc => ?_, fun u hinv hdone hstep hu => ?_⟩⟩
  · have hrun : s.pc ≠ 0#16 := by rw [hpc]; decide
    obtain ⟨hfault, -, hcause⟩ := hinv.running hrun
    exact State.status_of_done hcause hfault rfl rfl
  · exact step_keeps_H_of_halted (hinv.done_halted hdone).1 hstep hu

end Machine

end Sys2Proof
end

section
/-! PROOF (O11, O15, O16, O17, O18, O19). The host operations of 43_host_commands.md: the words that are rejected, the two
groups of checks, what din reaches, and SETLEN, START, GETST, GETW and GETB (R170 to R175). -/

namespace Sys2Proof

/-! ## Words -/

theorem encode_getw (i : Fin 8) : encode (.getw i) = 0x0400#16 + BitVec.ofNat 16 i.val :=
  encode_indexed (f := .getw) (opc := 0x04#8) (by decide) (fun _ => rfl) i

theorem encode_getb (j : Fin 32) : encode (.getb j) = 0x0500#16 + BitVec.ofNat 16 j.val :=
  encode_indexed (f := .getb) (opc := 0x05#8) (by decide) (fun _ => rfl) j

/-- When the opcode's row takes no index from `n` on, its words whose low byte, `z` included, is from `n` on are reserved. -/
theorem decode_reserved_of_lowByte {w : OpWord} {opc n : Nat} (hopc : w.toNat / 256 = opc) (hlow : n ≤ w.toNat % 256)
    (hrow : ∀ idx, n ≤ idx → idx < 64 → opcodeRows opc idx = none) : (decode w).toOption = none := by
  rw [decode_toOption, hopc]
  split
  · rfl
  next hz => exact hrow _ (by omega) (by omega)

namespace Machine

/-- A reserved word and a sequencer word are answered IllegalOp. -/
theorem hostTransaction_illegal {opw : OpWord} (s : State) (h : ∀ i, decode opw = .ok i → i.issuer = .sequencer) :
    hostTransaction opw s = .next { s with response := some ⟨1#4, 0#32⟩ } := by
  rcases hostTransaction_cases opw s with ⟨-, ht⟩ | ⟨i, hd, hi, -⟩
  · exact ht
  · cases hi.symm.trans (h i hd)

/-- A word that has the opcode of an operation and an index the operation does not take, or `z` not 0. -/
theorem hostTransaction_malformed {w : OpWord} {opc n : Nat} (s : State) (hopc : w.toNat / 256 = opc)
    (hlow : n ≤ w.toNat % 256) (hrow : ∀ idx, n ≤ idx → idx < 64 → opcodeRows opc idx = none) :
    hostTransaction w s = .next { s with response := some ⟨1#4, 0#32⟩ } :=
  hostTransaction_illegal s fun i hd => by
    have hnone := decode_reserved_of_lowByte hopc hlow hrow
    rw [hd] at hnone
    cases hnone

/-! ## The checks of SETLEN and START -/

section

variable {s performed : State}

theorem State.whenIdle_of_fault (hfault : s.FAULT = true) :
    s.whenIdle performed = { s with response := some ⟨4#4, 0#32⟩ } := if_pos hfault

theorem State.whenIdle_of_busy (hfault : s.FAULT = false) (hpc : s.pc ≠ 0#16) :
    s.whenIdle performed = { s with response := some ⟨2#4, 0#32⟩ } :=
  (if_neg (ne_true_of_eq_false hfault)).trans (if_pos hpc)

theorem State.whenIdle_of_idle (hfault : s.FAULT = false) (hpc : s.pc = 0#16) : s.whenIdle performed = performed :=
  (if_neg (ne_true_of_eq_false hfault)).trans (if_neg (not_not_intro hpc))

end

/-! ## The checks of GETW, GETB and GETX -/

section

variable {s : State} {v : Word}

theorem State.whenDone_of_fault (hfault : s.FAULT = true) :
    s.whenDone v = { s with response := some ⟨4#4, 0#32⟩ } := if_pos hfault

theorem State.whenDone_of_notDone (hfault : s.FAULT = false) (hdone : s.DONE = false) :
    s.whenDone v = { s with response := some ⟨3#4, 0#32⟩ } :=
  (if_neg (ne_true_of_eq_false hfault)).trans (if_pos hdone)

theorem State.whenDone_of_done (hfault : s.FAULT = false) (hdone : s.DONE = true) :
    s.whenDone v = { s with response := some ⟨0#4, v⟩ } :=
  (if_neg (ne_true_of_eq_false hfault)).trans (if_neg (ne_false_of_eq_true hdone))

end

/-! ## The operations by their checks -/

theorem exec_setlen (s : State) : exec .setlen s = .next (s.whenIdle ({ s with LEN := s.din }.answer 0#32)) := rfl

theorem exec_start (s : State) :
    exec .start s = .next (s.whenIdle (({ s with DONE := false }.goto 0x1000#16).answer 0#32)) := rfl

theorem exec_getst (s : State) : exec .getst s = .next (s.answer s.status) := rfl

theorem exec_getw (i : Fin 8) (s : State) : exec (.getw i) s = .next (s.whenDone s.H[i]) := rfl

theorem exec_getb (j : Fin 32) (s : State) :
    exec (.getb j) s = .next (s.whenDone ((digestByte s.H j).zeroExtend 32)) := rfl

theorem exec_getx (j : Fin 64) (s : State) :
    exec (.getx j) s = .next (s.whenDone ((hexChar (digestNibble s.H j)).zeroExtend 32)) := rfl

/-- A host operation other than GETST makes the checks of SETLEN and START, or those of the digest reads. -/
theorem exec_host_checks {i : Instr} (s : State) (hi : i.issuer = .host) (hst : i ≠ .getst) :
    ((i = .setlen ∨ i = .start) ∧
      ∃ performed, performed.response = some ⟨0#4, 0#32⟩ ∧ exec i s = .next (s.whenIdle performed)) ∨
    (¬(i = .setlen ∨ i = .start) ∧ ∃ v, exec i s = .next (s.whenDone v)) := by
  cases i with
  | setlen => exact .inl ⟨.inl rfl, _, State.answer_response .., exec_setlen s⟩
  | start => exact .inl ⟨.inr rfl, _, State.answer_response .., exec_start s⟩
  | getst => exact absurd rfl hst
  | getw i => exact .inr ⟨by simp, _, exec_getw i s⟩
  | getb j => exact .inr ⟨by simp, _, exec_getb j s⟩
  | getx j => exact .inr ⟨by simp, _, exec_getx j s⟩
  | _ => cases hi

/-! ## What din reaches -/

theorem State.whenIdle_withDin (s performed : State) (d : DWord) :
    State.whenIdle { s with din := d } { performed with din := d } = { s.whenIdle performed with din := d } := by
  rcases s.whenIdle_cases performed with ⟨hfault, h⟩ | ⟨hfault, hpc, h⟩ | ⟨hfault, hpc, h⟩ <;> rw [h]
  · exact State.whenIdle_of_fault hfault
  · exact State.whenIdle_of_busy hfault hpc
  · exact State.whenIdle_of_idle hfault hpc

theorem State.whenDone_withDin (s : State) (v : Word) (d : DWord) :
    State.whenDone { s with din := d } v = { s.whenDone v with din := d } := by
  rcases s.whenDone_cases v with ⟨hfault, h⟩ | ⟨hfault, hdone, h⟩ | ⟨hfault, hdone, h⟩ <;> rw [h]
  · exact State.whenDone_of_fault hfault
  · exact State.whenDone_of_notDone hfault hdone
  · exact State.whenDone_of_done hfault hdone

/-- No host operation but SETLEN looks at din. -/
theorem exec_host_withDin {i : Instr} {s t : State} (d : DWord) (hi : i.issuer = .host) (hlen : i ≠ .setlen)
    (h : exec i s = .next t) : exec i { s with din := d } = .next { t with din := d } := by
  cases i with
  | setlen => exact absurd rfl hlen
  | start =>
    cases h
    exact congrArg Host.Outcome.next
      (State.whenIdle_withDin s (({ s with DONE := false }.goto 0x1000#16).answer 0#32) d)
  | getst =>
    cases h
    rfl
  | getw i =>
    cases h
    exact congrArg _ (State.whenDone_withDin ..)
  | getb j =>
    cases h
    exact congrArg _ (State.whenDone_withDin ..)
  | getx j =>
    cases h
    exact congrArg _ (State.whenDone_withDin ..)
  | _ => cases hi

theorem hostTransaction_withDin {opw : OpWord} {s t : State} (d : DWord) (hlen : decode opw ≠ .ok .setlen)
    (h : hostTransaction opw s = .next t) : hostTransaction opw { s with din := d } = .next { t with din := d } := by
  rcases hostTransaction_cases opw s with ⟨hillegal, hs⟩ | ⟨i, hd, hi, hs⟩
  · cases hs.symm.trans h
    exact hostTransaction_illegal _ hillegal
  · have hne : i ≠ .setlen := by
      rintro rfl
      exact hlen hd
    rw [hostTransaction_host _ hd hi]
    exact exec_host_withDin d hi hne (hs.symm.trans h)

/-! ## The order of the checks -/

/-- Settles O11: the word decides between IllegalOp, GETST and the two groups of checks. -/
theorem hostTransactionFollowsTheCheckOrder : Obligations.HostTransactionFollowsTheCheckOrder := by
  refine fun opw s => ⟨hostTransaction_illegal s, fun hd => hostTransaction_host s hd rfl, fun i hd hi hst => ?_,
    fun hlen d _ => hostTransaction_withDin d hlen⟩
  rw [hostTransaction_host s hd hi]
  rcases exec_host_checks s hi hst with ⟨hgroup, performed, hresp, he⟩ | ⟨hgroup, v, he⟩
  · refine ⟨fun hf => ?_, fun hf _ hpc => ?_, fun _ hlen hstart => ?_, fun hf hpc _ => ?_⟩
    · rw [he, State.whenIdle_of_fault hf]
    · rw [he, State.whenIdle_of_busy hf hpc]
    · exact absurd hgroup (not_or_intro hlen hstart)
    · rw [he, State.whenIdle_of_idle hf (hpc hgroup)]
      exact ⟨performed, _, rfl, rfl, hresp, rfl, fun _ => rfl⟩
  · refine ⟨fun hf => ?_, fun _ hg => absurd hg hgroup, fun hf _ _ hdone => ?_, fun hf _ hdone => ?_⟩
    · rw [he, State.whenDone_of_fault hf]
    · rw [he, State.whenDone_of_notDone hf hdone]
    · rw [he, State.whenDone_of_done hf (hdone.resolve_left hgroup)]
      exact ⟨_, _, rfl, rfl, rfl, rfl, fun hg => absurd hg hgroup⟩

/-! ## SETLEN and START -/

/-- Settles O15: the three outcomes of the checks, and the row of SETLEN, which takes index 0 only. -/
theorem setlenWritesTheLength : Obligations.SetlenWritesTheLength := by
  refine ⟨rfl, rfl, fun s hf hpc => ?_, fun s hf => ?_, fun s hf hpc => ?_, fun w s hopc hlow =>
    hostTransaction_malformed s hopc (Nat.pos_of_ne_zero hlow) fun idx hidx _ => ?_⟩
  · rw [exec_setlen, State.whenIdle_of_idle hf hpc]
    rfl
  · rw [exec_setlen, State.whenIdle_of_fault hf]
  · rw [exec_setlen, State.whenIdle_of_busy hf hpc]
  · simp [opcodeRows, Nat.ne_of_gt hidx]

/-- Settles O16: the three outcomes of the checks, which do not look at DONE, and the row of START. -/
theorem startBeginsARun : Obligations.StartBeginsARun := by
  refine ⟨rfl, rfl, fun s hf hpc => ?_, fun s hf => ?_, fun s hf hpc => ?_, fun w s hopc hlow =>
    hostTransaction_malformed s hopc (Nat.pos_of_ne_zero hlow) fun idx hidx _ => ?_⟩
  · rw [exec_start, State.whenIdle_of_idle hf hpc]
    rfl
  · rw [exec_start, State.whenIdle_of_fault hf]
  · rw [exec_start, State.whenIdle_of_busy hf hpc]
  · simp [opcodeRows, Nat.ne_of_gt hidx]

/-! ## GETST -/

theorem State.busy_toNat (s : State) : s.busy.toNat = if s.pc ≠ 0#16 then 1 else 0 := by
  by_cases hpc : s.pc = 0#16 <;> simp [State.busy, hpc]

/-- Faulted, with the cause code of InvariantFault and neither a digest nor a run, STATUS is 0x54. -/
theorem State.status_of_fault {s : State} (hcause : s.CAUSE = 5#4) (hfault : s.FAULT = true) (hdone : s.DONE = false)
    (hbusy : s.busy = false) : s.status = 0x00000054#32 := by
  rw [State.status, hcause, hfault, hdone, hbusy]
  rfl

/-- With no fault, no cause and no digest, STATUS is BUSY. -/
theorem State.status_of_notDone {s : State} (hcause : s.CAUSE = 0#4) (hfault : s.FAULT = false) (hdone : s.DONE = false) :
    s.status = 0x00000000#32 ∨ s.status = 0x00000001#32 := by
  rw [State.status, hcause, hfault, hdone]
  cases s.busy with
  | false => exact .inl rfl
  | true => exact .inr rfl

theorem State.busy_of_halted {s : State} (hpc : s.pc = 0x0000#16) : s.busy = false :=
  decide_eq_false (not_not_intro hpc)

/-- 10_state.md R37: the legal values of STATUS. -/
theorem StateInv.status_values {s : State} (h : StateInv s) :
    s.status = 0x00000000#32 ∨ s.status = 0x00000001#32 ∨ s.status = 0x00000002#32 ∨ s.status = 0x00000054#32 := by
  cases hfault : s.FAULT with
  | true =>
    obtain ⟨hpc, hdone, hcause⟩ := h.fault_halted hfault
    exact .inr (.inr (.inr (State.status_of_fault hcause hfault hdone (State.busy_of_halted hpc))))
  | false =>
    have hcause := h.no_cause hfault
    cases hdone : s.DONE with
    | true =>
      have hbusy := State.busy_of_halted (h.done_halted hdone).1
      exact .inr (.inr (.inl (State.status_of_done hcause hfault hdone hbusy)))
    | false =>
      rcases State.status_of_notDone hcause hfault hdone with h0 | h1
      · exact .inl h0
      · exact .inr (.inl h1)

/-- Settles O17: the answer is STATUS, whose value as a number and whose legal values are known. -/
theorem getstReadsTheStatus : Obligations.GetstReadsTheStatus := by
  refine ⟨rfl, rfl, fun s => ⟨s.status, exec_getst s, ?_, StateInv.status_values⟩, fun w s hopc hlow =>
    hostTransaction_malformed s hopc (Nat.pos_of_ne_zero hlow) fun idx hidx _ => ?_⟩
  · rw [State.status_toNat, State.busy_toNat]
  · simp [opcodeRows, Nat.ne_of_gt hidx]

/-! ## GETW and GETB -/

/-- Settles O18: the three outcomes of the checks on the digest word, and the row of GETW, which takes no index above 7. -/
theorem getwReadsADigestWord : Obligations.GetwReadsADigestWord := by
  refine ⟨fun i => ⟨encode_getw i, rfl⟩, fun i s hf hdone => ?_, fun i s hf => ?_, fun i s hf hdone => ?_,
    fun w s hopc hlow => hostTransaction_malformed s hopc hlow fun idx hidx _ => ?_⟩
  · rw [exec_getw, State.whenDone_of_done hf hdone]
  · rw [exec_getw, State.whenDone_of_fault hf]
  · rw [exec_getw, State.whenDone_of_notDone hf hdone]
  · simp [opcodeRows, Nat.not_le.mpr hidx]

/-- Settles O19: the three outcomes of the checks on the digest byte, and the row of GETB, which takes no index above 31. -/
theorem getbReadsADigestByte : Obligations.GetbReadsADigestByte := by
  refine ⟨fun j => ⟨encode_getb j, rfl⟩, fun j s hf hdone => ⟨(digestByte s.H j).zeroExtend 32, ?_, ?_⟩,
    fun j s hf => ?_, fun j s hf hdone => ?_,
    fun w s hopc hlow => hostTransaction_malformed s hopc hlow fun idx hidx _ => ?_⟩
  · rw [exec_getb, State.whenDone_of_done hf hdone]
  · rw [BitVec.zeroExtend, BitVec.toNat_setWidth_of_le (by decide), digestByte_toNat]
  · rw [exec_getb, State.whenDone_of_fault hf]
  · rw [exec_getb, State.whenDone_of_notDone hf hdone]
  · simp [opcodeRows, Nat.not_le.mpr hidx]

end Machine

end Sys2Proof
end

section
/-! PROOF (O12, O13). The exceptions of 60_exceptions.md: the rejection of every word that is not a host word (R202), and the
fatal fault, its entry from every position that is not legal and its persistence until RESET (R206). -/

namespace Sys2Proof.Machine

/-! ## IllegalOp -/

/-- Settles O12: a word outside the list decodes to no host operation. -/
theorem illegalWordsAreRejected : Obligations.IllegalWordsAreRejected := by
  refine fun w s hw => hostTransaction_illegal s fun i hd => ?_
  cases hi : i.issuer with
  | sequencer => rfl
  | host => exact absurd ((exists_host_iff_mem_hostWords w).mp ⟨i, hd, hi⟩) hw

/-! ## InvariantFault -/

/-- A position outside the list, reserved or a host word, is not an operation of the sequencer (R206). -/
theorem sequencerStep_of_not_mem {s : State} (hpc : s.pc ≠ 0#16) (hmem : s.pc ∉ sequencerWords) :
    sequencerStep s = .next s.takeInvariantFault := by
  rcases sequencerStep_cases s with ⟨h0, -⟩ | ⟨-, -, hs⟩ | ⟨-, i, hd, hi, -⟩
  · exact absurd h0 hpc
  · exact hs
  · exact absurd ((exists_sequencer_iff_mem_sequencerWords s.pc).mp ⟨i, hd, hi⟩) hmem

/-- A faulted core performs no SETLEN and no START, so a host transaction changes nothing but the response. -/
theorem hostTransaction_of_fault (opw : OpWord) {s : State} (hfault : s.FAULT = true) :
    ∃ r, hostTransaction opw s = .next { s with response := some r } := by
  rcases hostTransaction_cases opw s with ⟨-, ht⟩ | ⟨i, -, hi, ht⟩
  · exact ⟨_, ht⟩
  · rw [ht]
    rcases exec_host_cases s hi with he | ⟨hf, -⟩ | ⟨hf, -⟩
    · exact he
    · exact absurd hfault (ne_true_of_eq_false hf)
    · exact absurd hfault (ne_true_of_eq_false hf)

/-- While the core is faulted and halted, a turn other than RESET changes at most the ports and the host's memory. -/
theorem takeTurn_of_fault_halted {turn : Turn} {s : State} (hfault : s.FAULT = true) (hpc : s.pc = 0x0000#16)
    (hne : turn ≠ .reset) :
    ∃ d r m, takeTurn turn s = .next { s with din := d, response := r, msg := m } := by
  cases turn with
  | hostOp opw din =>
    obtain ⟨r, ht⟩ := hostTransaction_of_fault opw (s := { s with din := din }) hfault
    exact ⟨din, some r, s.msg, ht⟩
  | sequencer => exact ⟨s.din, s.response, s.msg, if_pos hpc⟩
  | reset => exact absurd rfl hne
  | writeMsg offset b => exact ⟨s.din, s.response, s.msg.write offset.toNat b, rfl⟩

/-- Settles O13: the entry of the fault, and the turns of the faulted and halted core it leaves. -/
theorem invariantFaultEntry : Obligations.InvariantFaultEntry := by
  refine fun s hpc hmem => ⟨s.takeInvariantFault, sequencerStep_of_not_mem hpc hmem, rfl, fun turn hne => ?_, _, rfl, rfl⟩
  obtain ⟨d, r, m, ht⟩ := takeTurn_of_fault_halted s.takeInvariantFault_FAULT s.takeInvariantFault_pc hne
  exact ⟨_, ht, rfl, rfl, rfl, rfl⟩

end Sys2Proof.Machine
end

section
/-! PROOF (O3, O4, O2, O5). The decoder and the encoder of 30_encoding.md against each other, and the match and mask columns of
the opcode map (R83) as tests of the word. -/

namespace Sys2Proof

/-! ## Masks -/

/-- A mask of all bits from `b` on tests the quotient by `2 ^ b`. -/
theorem and_highMask_eq_iff (w m : OpWord) (b : Nat) :
    w &&& (BitVec.allOnes 16 <<< b) = m ↔ w.toNat / 2 ^ b * 2 ^ b = m.toNat := by
  have hlt : w.toNat / 2 ^ b * 2 ^ b < 2 ^ 16 := Nat.lt_of_le_of_lt (Nat.div_mul_le_self ..) w.isLt
  rw [← BitVec.shiftLeft_ushiftRight, ← BitVec.toNat_inj, BitVec.toNat_shiftLeft, BitVec.toNat_ushiftRight,
    Nat.shiftRight_eq_div_pow, Nat.shiftLeft_eq, Nat.mod_eq_of_lt hlt]

/-- `w[5:0]` as a number. -/
theorem and_indexMask_toNat (w : OpWord) : (w &&& 0x3F#16).toNat = w.toNat % 64 :=
  (BitVec.toNat_and ..).trans (Nat.and_two_pow_sub_one_eq_mod w.toNat 6)

/-- A row without an index: the mask keeps the whole word. -/
theorem decode_plain_iff_mask {i : Instr} (hwf : i.wf = true) (w : OpWord) :
    decode w = .ok i ↔ w &&& BitVec.allOnes 16 = encode i := by
  rw [decode_eq_ok_iff, and_iff_right hwf, BitVec.and_allOnes, eq_comm]

/-- A row whose index has `b` bits: the mask drops them, and they are the index. -/
theorem encode_eq_iff_mask {b : Nat} {f : Fin (2 ^ b) → Instr} {opc : BitVec 8} (hb : b ≤ 6)
    (hf : ∀ k, encode (f k) = mkWord opc (BitVec.ofNat 6 k.val)) (w : OpWord) (k : Fin (2 ^ b)) :
    encode (f k) = w ↔ w &&& (BitVec.allOnes 16 <<< b) = mkWord opc 0#6 ∧ (w &&& 0x3F#16).toNat = k.val := by
  have hk : k.val < 2 ^ b := k.isLt
  have hpow : 2 ^ b ∣ 64 := pow_dvd_pow 2 hb
  rw [and_highMask_eq_iff, and_indexMask_toNat, ← BitVec.toNat_inj,
    Machine.encode_indexed_toNat (Nat.le_of_dvd (by decide) hpow) hf, mkWord_toNat, BitVec.toNat_ofNat]
  interval_cases b <;> omega

/-- The same for the decoder, where the row has no other check. -/
theorem decode_indexed_iff_mask {b : Nat} {f : Fin (2 ^ b) → Instr} {opc : BitVec 8} (hb : b ≤ 6)
    (hf : ∀ k, encode (f k) = mkWord opc (BitVec.ofNat 6 k.val)) (hwf : ∀ k, (f k).wf = true) (w : OpWord) (k : Fin (2 ^ b)) :
    decode w = .ok (f k) ↔ w &&& (BitVec.allOnes 16 <<< b) = mkWord opc 0#6 ∧ (w &&& 0x3F#16).toNat = k.val := by
  rw [decode_eq_ok_iff, and_iff_right (hwf k), encode_eq_iff_mask hb hf]

theorem decode_wexp_iff_mask (w : OpWord) (k : Fin 64) :
    decode w = .ok (.wexp k) ↔
      w &&& (BitVec.allOnes 16 <<< 6) = mkWord 0x21#8 0#6 ∧ (w &&& 0x3F#16).toNat = k.val ∧ 16 ≤ k.val := by
  rw [decode_eq_ok_iff, encode_eq_iff_mask (b := 6) (f := .wexp) (opc := 0x21#8) (by decide) (fun _ => rfl), Instr.wf,
    decide_eq_true_iff, and_comm, and_assoc]

namespace Machine

/-- Settles O3: a word made from its fields decodes by its fields, row by row. -/
theorem decodeOfEncode : Obligations.DecodeOfEncode := fun _ => decode_encode

/-- Settles O4: the opcode map, inverted. -/
theorem encodeOfDecode : Obligations.EncodeOfDecode := fun w i h => ((decode_eq_ok_iff w i).mp h).symm

/-- Settles O2: each row by its kind of operand, none, an index of so many bits, or WEXP's with its lower bound. -/
theorem rowsMatchTheirMasks : Obligations.RowsMatchTheirMasks := fun w =>
  ⟨decode_plain_iff_mask rfl w, decode_plain_iff_mask rfl w, decode_plain_iff_mask rfl w,
    decode_indexed_iff_mask (b := 3) (opc := 0x04#8) (by decide) (fun _ => rfl) (fun _ => rfl) w,
    decode_indexed_iff_mask (b := 5) (opc := 0x05#8) (by decide) (fun _ => rfl) (fun _ => rfl) w,
    decode_indexed_iff_mask (b := 6) (opc := 0x06#8) (by decide) (fun _ => rfl) (fun _ => rfl) w,
    decode_plain_iff_mask rfl w, decode_plain_iff_mask rfl w,
    decode_indexed_iff_mask (b := 4) (opc := 0x20#8) (by decide) (fun _ => rfl) (fun _ => rfl) w,
    decode_wexp_iff_mask w, decode_plain_iff_mask rfl w, decode_plain_iff_mask rfl w,
    decode_indexed_iff_mask (b := 6) (opc := 0x32#8) (by decide) (fun _ => rfl) (fun _ => rfl) w,
    decode_plain_iff_mask rfl w, decode_plain_iff_mask rfl w⟩

/-- Settles O5: the six legal words decode from their operations, the five reserved ones by evaluation. -/
theorem wordsWrittenOut : Obligations.WordsWrittenOut :=
  ⟨decode_encode (i := .round 5) rfl, decode_encode (i := .wexp 16) rfl, decode_encode (i := .wexp 63) rfl,
    decode_encode (i := .getw 7) rfl, decode_encode (i := .getx 63) rfl, decode_encode (i := .wload 15) rfl,
    rfl, rfl, rfl, rfl, rfl⟩

end Machine

end Sys2Proof
end

section
/-! PROOF (O23, O24, O39, O42, O53). The framer of 40_framer.md against the message: where FRAME stops and which bytes it
depends on (20_memory.md R65), the shape of the Padded Message (R100), and FRAME delivering its blocks (R106). -/

namespace Sys2Proof.Machine

/-! ## What the fill of a block depends on -/

/-- A fill stops at the first byte of the block that MSG does not have. -/
theorem frameFill_eq_error {s : State} {n k j : Nat} (blk : Vector Byte 64) (hj : j < k) (hlt : 64 * n + j < s.LEN.toNat)
    (hr : s.msg.read (64 * n + j) = none)
    (hi : ∀ i, i < j → ∃ b, paddedByte s (s.freeCount + i) (64 * n + i) = .ok b) :
    frameFill s n k blk = .error (64 * n + j) := by
  have unreadable : ∀ {b}, paddedByte s (s.freeCount + j) (64 * n + j) ≠ .ok b := fun hb => by
    cases hr.symm.trans (read_of_paddedByte hlt hb)
  cases hf : frameFill s n k blk with
  | ok blk' =>
    obtain ⟨b, hb⟩ := frameFill_reads hf j hj
    exact absurd hb unreadable
  | error e =>
    obtain ⟨j', -, rfl, hlt', hr', hi'⟩ := frameFill_error hf
    rcases Nat.lt_trichotomy j' j with h | rfl | h
    · obtain ⟨b, hb⟩ := hi j' h
      cases hr'.symm.trans (read_of_paddedByte hlt' hb)
    · rfl
    · obtain ⟨b, hb⟩ := hi' j h
      exact absurd hb unreadable

/-- The fill of a whole block leaves nothing of what BLK held before. -/
theorem frameFill_whole (s : State) (n : Nat) (blk blk' : Vector Byte 64) :
    frameFill s n 64 blk = frameFill s n 64 blk' := by
  cases hf : frameFill s n 64 blk with
  | error e =>
    obtain ⟨j, hj, rfl, hlt, hr, hi⟩ := frameFill_error hf
    rw [frameFill_eq_error blk' hj hlt hr hi]
  | ok a =>
    cases hf' : frameFill s n 64 blk' with
    | error e =>
      obtain ⟨j, hj, rfl, hlt, hr, hi⟩ := frameFill_error hf'
      cases hf.symm.trans (frameFill_eq_error blk hj hlt hr hi)
    | ok b =>
      refine congrArg Except.ok (Vector.ext fun j hj => ?_)
      exact Except.ok.inj (((frameFill_ok hf j hj).1 hj).symm.trans ((frameFill_ok hf' j hj).1 hj))

/-- A fill depends on the lengths, the counter of free values and the bytes of its block below LEN. -/
theorem frameFill_congr {s s' : State} {n k : Nat} (blk : Vector Byte 64) (hlen : s'.LEN = s.LEN)
    (hbit : s'.BITLEN = s.BITLEN) (hblk : s'.NBLK = s.NBLK) (hfree : s'.freeCount = s.freeCount)
    (hmsg : ∀ j, j < k → 64 * n + j < s.LEN.toNat → s'.msg.read (64 * n + j) = s.msg.read (64 * n + j)) :
    frameFill s' n k blk = frameFill s n k blk := by
  induction k with
  | zero => rfl
  | succ k ih =>
    rw [frameFill_succ, frameFill_succ, ih fun j hj => hmsg j (Nat.lt_succ_of_lt hj), hfree,
      paddedByte_congr hlen hbit hblk (hmsg k (Nat.lt_succ_self k))]

/-- FRAME by the outcome of its fill. -/
theorem exec_frame_of_ok {s : State} {blk : Vector Byte 64} (h : frameFill s s.BI.toNat 64 s.BLK = .ok blk) :
    exec .frame s = .next ({ s with
      BLK := blk, BI := BitVec.ofNat 64 (s.BI.toNat + 1), freeCount := s.freeCount + 64 }.goto 0x2000#16) := by
  change execFrame s = _
  unfold execFrame
  rw [h]

theorem exec_frame_of_error {s : State} {p : Nat} (h : frameFill s s.BI.toNat 64 s.BLK = .error p) :
    exec .frame s = .fault (.messageUndefined p) := by
  change execFrame s = _
  unfold execFrame
  rw [h]

/-- Settles O23: the fill stops at the first undefined byte, since every byte before it can be read. -/
theorem frameStopsAtTheFirstUndefinedByte : Obligations.FrameStopsAtTheFirstUndefinedByte := by
  intro s p hlo hhi hlt hr hbefore
  obtain ⟨j, rfl⟩ := Nat.exists_eq_add_of_le hlo
  refine exec_frame_of_error (frameFill_eq_error s.BLK (by omega) hlt hr fun i hij => ?_)
  exact paddedByte_defined _ fun _ => hbefore _ (Nat.le_add_right ..) (Nat.add_lt_add_left hij _)

/-- Settles O24: the fill is the same, so FRAME does the same. -/
theorem frameReadsOnlyItsOwnBytes : Obligations.FrameReadsOnlyItsOwnBytes := by
  intro s m hm
  have hfill : frameFill { s with msg := m } s.BI.toNat 64 s.BLK = frameFill s s.BI.toNat 64 s.BLK :=
    frameFill_congr s.BLK rfl rfl rfl rfl fun j hj hlt => hm _ (Nat.le_add_right ..) (by omega) hlt
  cases hf : frameFill s s.BI.toNat 64 s.BLK with
  | ok blk =>
    have hs := exec_frame_of_ok hf
    have hs' := exec_frame_of_ok (hfill.trans hf)
    refine ⟨fun t ht => ?_, fun e he => nomatch hs.symm.trans he⟩
    cases hs.symm.trans ht
    exact hs'
  | error p =>
    have hs := exec_frame_of_error hf
    have hs' := exec_frame_of_error (hfill.trans hf)
    exact ⟨fun t ht => (nomatch hs.symm.trans ht), fun e he => hs'.trans (hs.symm.trans he)⟩

/-! ## The length field -/

/-- One more byte of the field, after the leading `n` of them. -/
theorem leadingBytes_succ (v : DWord) {n : Nat} (hn : n < 8) :
    v.toNat / 2 ^ (64 - 8 * (n + 1)) = v.toNat / 2 ^ (64 - 8 * n) * 256 + (bigEndianByte v n).toNat := by
  have hexp : 64 - 8 * n = 56 - 8 * n + 8 := by omega
  have hexp' : 64 - 8 * (n + 1) = 56 - 8 * n := by omega
  rw [bigEndianByte_toNat, hexp, hexp', Nat.pow_add, ← Nat.div_div_eq_div_mul]
  exact (Nat.div_add_mod' _ 256).symm

/-- The leading `n` bytes of the field, read as one big-endian number. -/
theorem foldl_leadingBytes (v : DWord) {n : Nat} (hn : n ≤ 8) :
    ((List.range n).map (bigEndianByte v)).foldl (fun x b => x * 256 + b.toNat) 0 = v.toNat / 2 ^ (64 - 8 * n) := by
  induction n with
  | zero => exact (Nat.div_eq_of_lt v.isLt).symm
  | succ n ih =>
    rw [List.range_succ, List.map_append, List.foldl_append, ih (Nat.le_of_succ_le hn), leadingBytes_succ v hn]
    rfl

/-- The leading `n` bytes of the field, by weight. -/
theorem sum_leadingBytes (v : DWord) {n : Nat} (hn : n ≤ 8) :
    ((List.range n).map fun j => (bigEndianByte v j).toNat * 2 ^ (8 * (7 - j))).sum =
      v.toNat / 2 ^ (64 - 8 * n) * 2 ^ (64 - 8 * n) := by
  induction n with
  | zero => rw [Nat.div_eq_of_lt v.isLt, Nat.zero_mul, List.range_zero, List.map_nil, List.sum_nil]
  | succ n ih =>
    have hexp : 64 - 8 * n = 8 * (7 - n) + 8 := by omega
    have hexp' : 64 - 8 * (n + 1) = 8 * (7 - n) := by omega
    rw [List.range_succ, List.map_append, List.sum_append, ih (Nat.le_of_succ_le hn), leadingBytes_succ v hn, hexp, hexp',
      List.map_singleton, List.sum_singleton, Nat.add_mul, Nat.pow_add, Nat.mul_comm (2 ^ (8 * (7 - n))), Nat.mul_assoc]

/-- Settles O39: the sum of the leading bytes by weight, for all eight. -/
theorem lengthFieldIsBigEndian : Obligations.LengthFieldIsBigEndian := fun v => by
  rw [sum_leadingBytes v (Nat.le_refl 8), Nat.pow_zero, Nat.div_one, Nat.mul_one]

/-! ## The Padded Message -/

/-- The Message, the `0x80` byte, the zero bytes and the length field fill whole blocks, for every length. -/
theorem blocksFor_mul (L : Nat) : 64 * blocksFor L = L + 1 + zeroCount L + 8 := by
  rw [blocksFor, zeroCount]
  omega

theorem padMessage_length (m : List Byte) : (padMessage m).length = 64 * blocksFor m.length := by
  simp only [padMessage, List.length_append, List.length_replicate, List.length_map, List.length_range, List.length_singleton]
  exact (blocksFor_mul m.length).symm

theorem padMessage_message {m : List Byte} {p : Nat} (hp : p < m.length) : (padMessage m)[p]? = m[p]? := by
  simp only [padMessage, List.append_assoc]
  exact List.getElem?_append_left hp

theorem padMessage_marker (m : List Byte) : (padMessage m)[m.length]? = some 0x80#8 := by
  simp [padMessage]

theorem padMessage_zero {m : List Byte} {p : Nat} (hlen : m.length < p) (hp : p + 8 < 64 * blocksFor m.length) :
    (padMessage m)[p]? = some 0x00#8 := by
  rw [blocksFor_mul] at hp
  rw [padMessage, List.getElem?_append_left (by simp; omega), List.getElem?_append_right (by simp; omega),
    List.getElem?_replicate, if_pos (by simp; omega)]

theorem padMessage_lengthField {m : List Byte} {p : Nat} (hlo : 64 * blocksFor m.length ≤ p + 8)
    (hhi : p < 64 * blocksFor m.length) :
    (padMessage m)[p]? = some (bigEndianByte (BitVec.ofNat 64 (8 * m.length)) (p + 8 - 64 * blocksFor m.length)) := by
  rw [blocksFor_mul] at *
  have hindex : p - (m.length + 1 + zeroCount m.length) = p + 8 - (m.length + 1 + zeroCount m.length + 8) := by omega
  rw [padMessage, List.getElem?_append_right (by simp; omega), List.getElem?_map, List.getElem?_range (by simp; omega)]
  simp only [List.length_append, List.length_replicate, List.length_singleton, Option.map_some, hindex]

/-- The last eight bytes are the length field. -/
theorem padMessage_drop (m : List Byte) :
    (padMessage m).drop ((padMessage m).length - 8) = (List.range 8).map (bigEndianByte (BitVec.ofNat 64 (8 * m.length))) := by
  rw [padMessage_length, blocksFor_mul, Nat.add_sub_cancel]
  exact List.drop_left' (by simp; omega)

/-- Settles O42: the four parts of the Padded Message by position. -/
theorem paddedMessageShape : Obligations.PaddedMessageShape := by
  refine fun m => ⟨padMessage_length m, fun p => padMessage_message, padMessage_marker m, fun p hlen hp => ?_, ?_⟩
  · rw [padMessage_length] at hp
    exact padMessage_zero hlen hp
  · rw [padMessage_drop, foldl_leadingBytes _ (Nat.le_refl 8), BitVec.toNat_ofNat, Nat.pow_zero, Nat.div_one, Nat.mul_comm]

/-! ## FRAME delivers the Padded Message -/

/-- PaddedByte of R104 is the byte of the Padded Message of R100, wherever that has one. -/
theorem padMessage_of_paddedByte {s : State} {m : List Byte} {free p : Nat} {b : Byte} (hbit : s.BITLEN = bitLength s.LEN)
    (hblk : s.NBLK = blockCount s.LEN) (hm : MessageIs s m) (hp : p < 64 * s.NBLK.toNat) (h : paddedByte s free p = .ok b) :
    (padMessage m)[p]? = some b := by
  obtain ⟨hlen, hbytes⟩ := hm
  have hN : s.NBLK.toNat = blocksFor m.length := by rw [hblk, blockCount_eq_blocksFor, hlen]
  have value : ∀ {c : Byte}, paddedByte s free p = .ok c → c = b := fun hc => Except.ok.inj (hc.symm.trans h)
  rcases Nat.lt_trichotomy p s.LEN.toNat with hlt | rfl | hgt
  · rw [padMessage_message (hlen ▸ hlt), ← hbytes p (hlen ▸ hlt), read_of_paddedByte hlt h]
  · rw [← value (paddedByte_marker s free), hlen, padMessage_marker]
  · rcases Nat.lt_or_ge (p + 8) (64 * s.NBLK.toNat) with h8 | h8
    · rw [← value (paddedByte_zero free hgt h8), padMessage_zero (hlen ▸ hgt) (hN ▸ h8)]
    · rw [← value (paddedByte_lengthField free hgt h8 hp), padMessage_lengthField (hN ▸ h8) (hN ▸ hp), hbit, bitLength, hlen,
        hN, Nat.mul_comm 8]

/-- FRAME with a block to frame and its bytes in MSG. -/
theorem execFrame_delivers {s : State} {m : List Byte} (hbit : s.BITLEN = bitLength s.LEN) (hblk : s.NBLK = blockCount s.LEN)
    (hmore : s.BI.toNat < s.NBLK.toNat) (hm : MessageIs s m) :
    ∃ t, execFrame s = .next t ∧ t.BLK = messageBlock m s.BI.toNat ∧ t.BI.toNat = s.BI.toNat + 1 := by
  obtain ⟨t, ht⟩ := execFrame_completes (s := s) fun _ _ hlt => hm.defined _ hlt
  obtain ⟨-, hbytes⟩ := execFrame_next ht
  refine ⟨t, ht, Vector.ext fun j hj => ?_, execFrame_BI ht hmore⟩
  have hbyte := padMessage_of_paddedByte hbit hblk hm (by omega) (hbytes j hj)
  rw [messageBlock, Vector.getElem_ofFn, List.getD_eq_getElem?_getD, hbyte, Option.getD_some]

/-- Settles O53: the invariant at FRAME gives the lengths and a block to frame. -/
theorem framesDeliverThePaddedMessage : Obligations.FramesDeliverThePaddedMessage := by
  intro s m hinv hpc hm
  have hpast : pastFinit s.pc := by rw [hpc]; exact ⟨by decide, by decide⟩
  obtain ⟨hbit, hblk⟩ := hinv.lengths hpast
  obtain ⟨t, ht, hBLK, hBI⟩ := execFrame_delivers hbit hblk (hinv.block_remains hpc) hm
  exact ⟨t, ht, hBLK, hBI, by rw [execFrame_frame ht]⟩

end Sys2Proof.Machine
end

section
/-! PROOF (O44, O45). The table of 10_state.md R46: what each operation writes and what it reads. -/

namespace Sys2Proof.Machine

/-! ## Write sets -/

theorem Reg.same_refl (r : Reg) (s : State) : r.same s s := by
  cases r with
  | MSG => exact fun _ => rfl
  | faultCause => exact ⟨rfl, rfl⟩
  | _ => exact rfl

/-- A host operation changes nothing but the response and what its row of R46 names. -/
theorem exec_host_same {i : Instr} {s t : State} (hi : i.issuer = .host) (h : exec i s = .next t) {r : Reg}
    (hr : r ∉ writeSet i) : r.same s t := by
  have keep := Reg.same_refl r s
  rcases exec_host_cases s hi with ⟨_, he⟩ | ⟨-, -, rfl, he⟩ | ⟨-, -, rfl, he⟩
  · cases he.symm.trans h
    cases r <;> exact keep
  · cases he.symm.trans h
    cases r with
    | LEN => simp [writeSet] at hr
    | _ => exact keep
  · cases he.symm.trans h
    cases r with
    | DONE | pc => simp [writeSet] at hr
    | _ => exact keep

/-- A sequencer operation changes nothing but what its row of R46 names. -/
theorem exec_sequencer_same {i : Instr} {s t : State} (hwf : i.wf = true) (hi : i.issuer = .sequencer)
    (h : exec i s = .next t) {r : Reg} (hr : r ∉ writeSet i) : r.same s t := by
  have keep := Reg.same_refl r s
  cases i with
  | finit =>
    cases h
    cases r with
    | BITLEN | NBLK | BI | pc => simp [writeSet] at hr
    | _ => exact keep
  | frame =>
    obtain ⟨⟨blk, rfl⟩, -⟩ := execFrame_next h
    cases r with
    | BLK | BI | pc => simp [writeSet] at hr
    | _ => exact keep
  | wload k =>
    cases h
    cases r with
    | W | pc => simp [writeSet] at hr
    | _ => exact keep
  | wexp k =>
    cases (exec_wexp (of_decide_eq_true hwf) s).symm.trans h
    cases r with
    | W | pc => simp [writeSet] at hr
    | _ => exact keep
  | hinit | fold =>
    cases h
    cases r with
    | H | pc => simp [writeSet] at hr
    | _ => exact keep
  | seed | round k =>
    cases h
    cases r with
    | V | pc => simp [writeSet] at hr
    | _ => exact keep
  | emit =>
    cases h
    cases r with
    | DONE | pc => simp [writeSet] at hr
    | _ => exact keep
  | _ => cases hi

/-- No operation writes MSG or takes turns off the schedule, and the response is the host operations' alone. -/
theorem exec_keeps {i : Instr} {s t : State} (h : exec i s = .next t) :
    t.msg = s.msg ∧ t.schedule = s.schedule ∧ (i.issuer = .sequencer → t.response = s.response) := by
  cases hi : i.issuer with
  | host =>
    rcases exec_host_cases s hi with ⟨_, he⟩ | ⟨-, -, -, he⟩ | ⟨-, -, -, he⟩ <;>
    · cases he.symm.trans h
      exact ⟨rfl, rfl, nofun⟩
  | sequencer =>
    cases i with
    | frame =>
      obtain ⟨⟨blk, rfl⟩, -⟩ := execFrame_next h
      exact ⟨rfl, rfl, fun _ => rfl⟩
    | wexp k =>
      simp only [exec, execWexp] at h
      split at h <;>
      · cases h
        exact ⟨rfl, rfl, fun _ => rfl⟩
    | finit | wload k | hinit | seed | round k | fold | emit =>
      cases h
      exact ⟨rfl, rfl, fun _ => rfl⟩
    | _ => cases hi

theorem exec_same_off_writeSet {i : Instr} {s t : State} (hwf : i.wf = true) (h : exec i s = .next t) {r : Reg}
    (hr : r ∉ writeSet i) : r.same s t := by
  cases hi : i.issuer with
  | host => exact exec_host_same hi h hr
  | sequencer => exact exec_sequencer_same hwf hi h hr

/-- Settles O44: every operation against its row of the table. -/
theorem writeSetsOfTheOperations : Obligations.WriteSetsOfTheOperations := fun _ _ _ hwf h =>
  ⟨fun _ => exec_same_off_writeSet hwf h, (exec_keeps h).2⟩

/-! ## Read sets -/

/-- `s` with one register taken from `u`. -/
def Reg.put : Reg → State → State → State
  | .LEN, u, s => { s with LEN := u.LEN }
  | .BITLEN, u, s => { s with BITLEN := u.BITLEN }
  | .NBLK, u, s => { s with NBLK := u.NBLK }
  | .BI, u, s => { s with BI := u.BI }
  | .MSG, u, s => { s with msg := u.msg }
  | .BLK, u, s => { s with BLK := u.BLK }
  | .W, u, s => { s with W := u.W }
  | .H, u, s => { s with H := u.H }
  | .V, u, s => { s with V := u.V }
  | .pc, u, s => { s with pc := u.pc }
  | .DONE, u, s => { s with DONE := u.DONE }
  | .faultCause, u, s => { s with FAULT := u.FAULT, CAUSE := u.CAUSE }
  | .din, u, s => { s with din := u.din }

theorem Reg.differOnlyAt_iff (r : Reg) (s t : State) : r.differOnlyAt s t ↔ t = r.put t s := by
  cases r with
  | faultCause => exact ⟨fun ⟨_, _, h⟩ => h ▸ rfl, fun h => ⟨_, _, h⟩⟩
  | _ => exact ⟨fun ⟨_, h⟩ => h ▸ rfl, fun h => ⟨_, h⟩⟩

section

variable {r : Reg} {s t : State}

theorem Reg.differOnlyAt.same_pc (h : r.differOnlyAt s t) (hr : r ≠ .pc) : t.pc = s.pc := by
  rw [(r.differOnlyAt_iff s t).mp h]
  cases r with
  | pc => exact absurd rfl hr
  | _ => rfl

theorem Reg.differOnlyAt.same_DONE (h : r.differOnlyAt s t) (hr : r ≠ .DONE) : t.DONE = s.DONE := by
  rw [(r.differOnlyAt_iff s t).mp h]
  cases r with
  | DONE => exact absurd rfl hr
  | _ => rfl

theorem Reg.differOnlyAt.same_H (h : r.differOnlyAt s t) (hr : r ≠ .H) : t.H = s.H := by
  rw [(r.differOnlyAt_iff s t).mp h]
  cases r with
  | H => exact absurd rfl hr
  | _ => rfl

theorem Reg.differOnlyAt.same_FAULT (h : r.differOnlyAt s t) (hr : r ≠ .faultCause) :
    t.FAULT = s.FAULT ∧ t.CAUSE = s.CAUSE := by
  rw [(r.differOnlyAt_iff s t).mp h]
  cases r with
  | faultCause => exact absurd rfl hr
  | _ => exact ⟨rfl, rfl⟩

/-- Answers alike leave the states alike. -/
theorem Reg.differOnlyAt.withResponse (h : r.differOnlyAt s t) (resp : Option Response) :
    r.differOnlyAt { s with response := resp } { t with response := resp } := by
  rw [(r.differOnlyAt_iff s t).mp h, Reg.differOnlyAt_iff]
  cases r <;> rfl

theorem Reg.differOnlyAt.whenIdle (h : r.differOnlyAt s t) {p q : State} (hp : r.differOnlyAt p q) (hpc : r ≠ .pc)
    (hfault : r ≠ .faultCause) : r.differOnlyAt (s.whenIdle p) (t.whenIdle q) := by
  have hpc' := h.same_pc hpc
  have hfault' := (h.same_FAULT hfault).1
  unfold State.whenIdle
  rw [hpc', hfault']
  split
  · exact h.withResponse _
  · split
    · exact h.withResponse _
    · exact hp

theorem Reg.differOnlyAt.whenDone (h : r.differOnlyAt s t) (v : Word) (hdone : r ≠ .DONE) (hfault : r ≠ .faultCause) :
    r.differOnlyAt (s.whenDone v) (t.whenDone v) := by
  have hdone' := h.same_DONE hdone
  have hfault' := (h.same_FAULT hfault).1
  unfold State.whenDone
  rw [hdone', hfault']
  split
  · exact h.withResponse _
  · split <;> exact h.withResponse _

end

/-- A host operation on two states that differ in a register it does not read. -/
theorem exec_host_differOnlyAt {i : Instr} {r : Reg} {s t : State} (hi : i.issuer = .host) (hr : r ∉ readSet i)
    (h : r.differOnlyAt s t) : r.outcomesDifferOnlyAt (exec i s) (exec i t) := by
  cases i with
  | setlen =>
    simp only [readSet, List.mem_cons, List.not_mem_nil, or_false, not_or] at hr
    obtain ⟨hpc, hfault, hdin⟩ := hr
    refine h.whenIdle ?_ hpc hfault
    rw [(r.differOnlyAt_iff s t).mp h, Reg.differOnlyAt_iff]
    cases r with
    | din => exact absurd rfl hdin
    | _ => rfl
  | start =>
    simp only [readSet, List.mem_cons, List.not_mem_nil, or_false, not_or] at hr
    obtain ⟨hpc, hfault⟩ := hr
    refine h.whenIdle ?_ hpc hfault
    rw [(r.differOnlyAt_iff s t).mp h, Reg.differOnlyAt_iff]
    cases r <;> rfl
  | getst =>
    simp only [readSet, List.mem_cons, List.not_mem_nil, or_false, not_or] at hr
    obtain ⟨hpc, hdone, hfault⟩ := hr
    obtain ⟨hfault', hcause'⟩ := h.same_FAULT hfault
    have hstatus : t.status = s.status := by
      rw [State.status, State.status, State.busy, State.busy, h.same_pc hpc, h.same_DONE hdone, hfault', hcause']
    rw [exec_getst, exec_getst, hstatus]
    exact h.withResponse _
  | getw j | getb j | getx j =>
    simp only [readSet, List.mem_cons, List.not_mem_nil, or_false, not_or] at hr
    obtain ⟨hH, hdone, hfault⟩ := hr
    simp only [exec_getw, exec_getb, exec_getx, h.same_H hH]
    exact h.whenDone _ hdone hfault
  | _ => cases hi

/-- FRAME on two states that differ in a register it does not read: the fill is the same. -/
theorem exec_frame_put {r : Reg} (u s : State) (hr : r ∉ readSet .frame) :
    r.outcomesDifferOnlyAt (exec .frame s) (exec .frame (r.put u s)) := by
  have hfill : frameFill (r.put u s) (r.put u s).BI.toNat 64 (r.put u s).BLK = frameFill s s.BI.toNat 64 s.BLK := by
    cases r with
    | LEN | BITLEN | NBLK | BI | MSG => simp [readSet] at hr
    | BLK => exact (frameFill_congr _ rfl rfl rfl rfl fun _ _ _ => rfl).trans (frameFill_whole ..)
    | _ => exact frameFill_congr _ rfl rfl rfl rfl fun _ _ _ => rfl
  cases hf : frameFill s s.BI.toNat 64 s.BLK with
  | error p =>
    rw [exec_frame_of_error hf, exec_frame_of_error (hfill.trans hf)]
    exact rfl
  | ok blk =>
    rw [exec_frame_of_ok hf, exec_frame_of_ok (hfill.trans hf)]
    refine (Reg.differOnlyAt_iff ..).mpr ?_
    cases r with
    | BI => simp [readSet] at hr
    | _ => rfl

/-- A sequencer operation on two states that differ in a register it does not read. -/
theorem exec_sequencer_put {i : Instr} {r : Reg} (u s : State) (hwf : i.wf = true) (hi : i.issuer = .sequencer)
    (hr : r ∉ readSet i) : r.outcomesDifferOnlyAt (exec i s) (exec i (r.put u s)) := by
  cases i with
  | frame => exact exec_frame_put u s hr
  | wexp k =>
    have hk : 16 ≤ k.val := of_decide_eq_true hwf
    rw [exec_wexp hk, exec_wexp hk]
    refine (Reg.differOnlyAt_iff ..).mpr ?_
    cases r with
    | W => simp [readSet] at hr
    | _ => rfl
  | finit =>
    refine (Reg.differOnlyAt_iff ..).mpr ?_
    cases r with
    | LEN => simp [readSet] at hr
    | _ => rfl
  | wload k =>
    refine (Reg.differOnlyAt_iff ..).mpr ?_
    cases r with
    | BLK => simp [readSet] at hr
    | _ => rfl
  | hinit | emit =>
    refine (Reg.differOnlyAt_iff ..).mpr ?_
    cases r <;> rfl
  | seed =>
    refine (Reg.differOnlyAt_iff ..).mpr ?_
    cases r with
    | H => simp [readSet] at hr
    | _ => rfl
  | round k =>
    refine (Reg.differOnlyAt_iff ..).mpr ?_
    cases r with
    | W | V => simp [readSet] at hr
    | _ => rfl
  | fold =>
    refine (Reg.differOnlyAt_iff ..).mpr ?_
    cases r with
    | NBLK | BI | H | V => simp [readSet] at hr
    | _ => rfl
  | _ => cases hi

/-- Settles O45: every operation against its row of the table. -/
theorem readSetsOfTheOperations : Obligations.ReadSetsOfTheOperations := by
  intro i r s t hwf hr h
  cases hi : i.issuer with
  | host => exact exec_host_differOnlyAt hi hr h
  | sequencer =>
    rw [(r.differOnlyAt_iff s t).mp h]
    exact exec_sequencer_put t s hwf hi hr

end Sys2Proof.Machine
end

section
/-! PROOF (O9, O7, O6, O8, O46, O10). One step: which operation it runs (70_reset_and_hazards.md R233), in which way alone it
stops (93_implementation_defined.md U3), RESET and the host's writes, and that the core never writes MSG (20_memory.md R62). -/

namespace Sys2Proof.Machine

/-! ## Completion -/

/-- A host transaction always completes. -/
theorem hostTransaction_completes (opw : OpWord) (s : State) : ∃ t, hostTransaction opw s = .next t := by
  rcases hostTransaction_cases opw s with ⟨-, ht⟩ | ⟨i, -, hi, ht⟩
  · exact ⟨_, ht⟩
  · rw [ht]
    exact exec_completes i s fun h => by rw [h] at hi; cases hi

/-- A sequencer step is never refused, and it faults only where FRAME does. -/
theorem sequencerStep_stops (s : State) :
    (∃ t, sequencerStep s = .next t) ∨ (s.pc = 0x1100#16 ∧ sequencerStep s = execFrame s) := by
  rcases sequencerStep_cases s with ⟨-, hs⟩ | ⟨-, -, hs⟩ | ⟨-, i, hd, -, hs⟩
  · exact .inl ⟨_, hs⟩
  · exact .inl ⟨_, hs⟩
  · by_cases hi : i = .frame
    · subst hi
      exact .inr ⟨((decode_eq_ok_iff s.pc .frame).mp hd).2.symm, hs⟩
    · rw [hs]
      exact .inl (exec_completes i s hi)

/-- The same for a turn. -/
theorem takeTurn_stops (turn : Turn) (s : State) :
    (∃ t, takeTurn turn s = .next t) ∨ (s.pc = 0x1100#16 ∧ takeTurn turn s = execFrame s) := by
  cases turn with
  | hostOp opw din => exact .inl (hostTransaction_completes opw _)
  | sequencer => exact sequencerStep_stops s
  | reset => exact .inl ⟨_, rfl⟩
  | writeMsg offset b => exact .inl ⟨_, rfl⟩

/-- And for a step, whichever turn it takes: FRAME runs on the state with that turn taken. -/
theorem step_stops (s : State) :
    (∃ t, step s = .next t) ∨ (s.pc = 0x1100#16 ∧ ∃ rest, step s = execFrame { s with schedule := rest }) := by
  rcases step_cases s with ⟨hsched, hs⟩ | ⟨turn, rest, -, hs⟩
  · rw [hs]
    exact (sequencerStep_stops s).imp_right fun ⟨hpc, h⟩ => ⟨hpc, s.schedule, h⟩
  · rw [hs]
    exact (takeTurn_stops turn { s with schedule := rest }).imp_right fun ⟨hpc, h⟩ => ⟨hpc, rest, h⟩

/-- Settles O9: a step that does not complete is FRAME, which stops at an undefined byte of its block. -/
theorem stepStopsOnlyAtAnUndefinedMessageByte : Obligations.StepStopsOnlyAtAnUndefinedMessageByte := by
  refine ⟨fun s r h => ?_, fun s e h => ?_⟩
  · rcases step_stops s with ⟨t, ht⟩ | ⟨-, rest, hf⟩
    · cases ht.symm.trans h
    · exact exec_ne_refused .frame _ r (hf.symm.trans h)
  · rcases step_stops s with ⟨t, ht⟩ | ⟨hpc, rest, hf⟩
    · cases ht.symm.trans h
    · obtain ⟨j, hj, rfl, hlt, hr, -⟩ := execFrame_fault (hf.symm.trans h)
      exact ⟨_, rfl, hpc, hlt, Nat.le_add_right .., Nat.add_lt_add_left hj _, hr⟩

/-! ## The turns -/

/-- Settles O6: the step lemma of the turn, then the operation of the agent that has it. -/
theorem stepRunsTheDecodedOperation : Obligations.StepRunsTheDecodedOperation := by
  refine fun s i => ⟨fun hi hd => ⟨fun hs => ?_, fun rest hs => ?_⟩, fun hi opw din rest hs hd => ?_⟩
  · rw [step_of_empty hs, sequencerStep_of_decode hd hi]
  · rw [step_of_turn hs]
    exact sequencerStep_of_decode (s := { s with schedule := rest }) hd hi
  · rw [step_of_turn hs]
    exact hostTransaction_host { s with schedule := rest, din := din } hd hi

/-- Where the sequencer is halted its step changes nothing. -/
theorem sequencerStep_of_halted {s : State} (hpc : s.pc = 0x0000#16) : sequencerStep s = .next s := if_pos hpc

/-- Settles O8: the sequencer is halted, whether its turn is given or not. -/
theorem idleCoreWaits : Obligations.IdleCoreWaits := by
  refine fun s hpc => ⟨fun hs => ?_, fun rest hs => ?_⟩
  · rw [step_of_empty hs, sequencerStep_of_halted hpc]
  · rw [step_of_turn hs]
    exact sequencerStep_of_halted (s := { s with schedule := rest }) hpc

/-- Settles O7: both turns are one update of the state; the write is read back by the laws of the message space. -/
theorem stepTakesResetAndMessageWrites : Obligations.StepTakesResetAndMessageWrites := by
  refine fun s rest => ⟨fun hs => ?_, fun p b hs => ?_⟩
  · exact ⟨_, step_of_turn hs, rfl, rfl, rfl, rfl, rfl, rfl, rfl⟩
  · exact ⟨_, step_of_turn hs, rfl, Memory.read_write_same .., fun q hq => Memory.read_write_other s.msg b hq⟩

/-- Settles O10: STATUS of a halted core with no flag set; the rest is the definition of reset. -/
theorem resetValues : Obligations.ResetValues := ⟨rfl, rfl, rfl, rfl, rfl, rfl, Memory.read_nil⟩

/-! ## MSG belongs to the host -/

theorem hostTransaction_keeps {opw : OpWord} {s t : State} (h : hostTransaction opw s = .next t) :
    t.msg = s.msg ∧ t.schedule = s.schedule := by
  rcases hostTransaction_cases opw s with ⟨-, ht⟩ | ⟨i, -, -, ht⟩
  · cases ht.symm.trans h
    exact ⟨rfl, rfl⟩
  · obtain ⟨hmsg, hsched, -⟩ := exec_keeps (ht.symm.trans h)
    exact ⟨hmsg, hsched⟩

theorem sequencerStep_keeps {s t : State} (h : sequencerStep s = .next t) : t.msg = s.msg ∧ t.schedule = s.schedule := by
  rcases sequencerStep_cases s with ⟨-, hs⟩ | ⟨-, -, hs⟩ | ⟨-, i, -, -, hs⟩
  · cases hs.symm.trans h
    exact ⟨rfl, rfl⟩
  · cases hs.symm.trans h
    exact ⟨rfl, rfl⟩
  · obtain ⟨hmsg, hsched, -⟩ := exec_keeps (hs.symm.trans h)
    exact ⟨hmsg, hsched⟩

/-- Settles O46: no operation, no rejection, no fault and no RESET touches MSG. -/
theorem coreNeverWritesMessage : Obligations.CoreNeverWritesMessage := by
  intro turn s t hne h a
  have hmsg : t.msg = s.msg := by
    cases turn with
    | hostOp opw din => exact (hostTransaction_keeps (s := { s with din := din }) h).1
    | sequencer => exact (sequencerStep_keeps h).1
    | reset =>
      cases h
      rfl
    | writeMsg p b => exact absurd rfl (hne p b)
  rw [hmsg]

end Sys2Proof.Machine
end

section
/-! PROOF (O47, O48, O14, O20). What a host transaction reveals and disturbs: nothing of a run (60_exceptions.md R203), nothing
hidden (10_state.md R42), nothing of a faulted core (60_exceptions.md R205); and GETX (43_host_commands.md R176). -/

namespace Sys2Proof.Machine

/-- Settles O47: SETLEN and START are performed only while the core is halted. -/
theorem hostCannotDisturbARun : Obligations.HostCannotDisturbARun := by
  intro opw s hpc
  rcases hostTransaction_cases opw s with ⟨-, ht⟩ | ⟨i, -, hi, ht⟩
  · exact ⟨_, ht⟩
  · rw [ht]
    rcases exec_host_cases s hi with he | ⟨-, h0, -⟩ | ⟨-, h0, -⟩
    · exact he
    · exact absurd h0 hpc
    · exact absurd h0 hpc

/-! ## Hidden state -/

/-- The answers of SETLEN and START depend on BUSY and FAULT. -/
theorem State.whenIdle_response_congr {s t p q : State} (hbusy : s.busy = t.busy) (hfault : s.FAULT = t.FAULT)
    (hp : p.response = q.response) : (s.whenIdle p).response = (t.whenIdle q).response := by
  have hpc : s.pc ≠ 0#16 ↔ t.pc ≠ 0#16 := decide_eq_decide.mp hbusy
  unfold State.whenIdle
  simp only [hfault, hpc]
  split
  · rfl
  · split
    · rfl
    · exact hp

/-- The answers of the digest reads depend on FAULT, DONE and, with DONE = 1, the value read. -/
theorem State.whenDone_response_congr {s t : State} {v w : Word} (hfault : s.FAULT = t.FAULT) (hdone : s.DONE = t.DONE)
    (hv : s.DONE = true → v = w) : (s.whenDone v).response = (t.whenDone w).response := by
  unfold State.whenDone
  rw [← hfault, ← hdone]
  split
  · rfl
  · split
    · rfl
    · rename_i hd
      rw [hv (by simpa using hd)]
      rfl

/-- The answer of a host operation depends on what 10_state.md R42 lets the host see. -/
theorem exec_host_response_congr {i : Instr} {s t s' t' : State} (hi : i.issuer = .host) (hbusy : s.busy = t.busy)
    (hdone : s.DONE = t.DONE) (hfault : s.FAULT = t.FAULT) (hcause : s.CAUSE = t.CAUSE) (hH : s.DONE = true → s.H = t.H)
    (hs : exec i s = .next s') (ht : exec i t = .next t') : s'.response = t'.response := by
  cases i with
  | setlen | start =>
    cases hs
    cases ht
    exact State.whenIdle_response_congr hbusy hfault rfl
  | getst =>
    cases hs
    cases ht
    rw [State.answer_response, State.answer_response, State.status, State.status, hbusy, hdone, hfault, hcause]
  | getw j | getb j | getx j =>
    cases hs
    cases ht
    exact State.whenDone_response_congr hfault hdone fun hd => by rw [hH hd]
  | _ => cases hi

/-- Settles O48: the word alone decides which operation answers, and its answer sees no hidden state. -/
theorem hiddenStateStaysHidden : Obligations.HiddenStateStaysHidden := by
  intro opw s t s' t' hbusy hdone hfault hcause hH hs ht
  rcases hostTransaction_cases opw s with ⟨hillegal, he⟩ | ⟨i, hd, hi, he⟩
  · cases (hostTransaction_illegal s hillegal).symm.trans hs
    cases (hostTransaction_illegal t hillegal).symm.trans ht
    rfl
  · exact exec_host_response_congr hi hbusy hdone hfault hcause hH (he.symm.trans hs)
      ((hostTransaction_host t hd hi).symm.trans ht)

/-! ## The faulted core -/

/-- 60_exceptions.md R205: while FAULT = 1 every host operation but GETST is answered Faulted. -/
theorem exec_host_of_fault {i : Instr} {s : State} (hi : i.issuer = .host) (hst : i ≠ .getst) (hfault : s.FAULT = true) :
    exec i s = .next { s with response := some ⟨4#4, 0#32⟩ } := by
  rcases exec_host_checks s hi hst with ⟨-, performed, -, he⟩ | ⟨-, v, he⟩
  · rw [he, State.whenIdle_of_fault hfault]
  · rw [he, State.whenDone_of_fault hfault]

/-- Settles O14: what the turns of a faulted and halted core can change, and the answer of its host words. -/
theorem fatalFaultLastsUntilReset : Obligations.FatalFaultLastsUntilReset := by
  refine fun s hfault hpc hdone => ⟨fun turn hne => ?_, fun opw hmem hst => ?_, _, rfl, rfl, rfl⟩
  · obtain ⟨d, r, m, ht⟩ := takeTurn_of_fault_halted hfault hpc hne
    exact ⟨_, ht, hfault, hpc, hdone, rfl, rfl, rfl⟩
  · obtain ⟨i, hd, hi⟩ := (exists_host_iff_mem_hostWords opw).mpr hmem
    have hne : i ≠ .getst := by
      rintro rfl
      exact hst ((decode_eq_ok_iff opw .getst).mp hd).2.symm
    rw [hostTransaction_host s hd hi, exec_host_of_fault hi hne hfault]

/-! ## GETX -/

theorem encode_getx (j : Fin 64) : encode (.getx j) = 0x0600#16 + BitVec.ofNat 16 j.val :=
  encode_indexed (f := .getx) (opc := 0x06#8) (by decide) (fun _ => rfl) j

/-- Settles O20: the three outcomes of the checks on the digest character, and the row of GETX, whose index fills its field. -/
theorem getxReadsADigestCharacter : Obligations.GetxReadsADigestCharacter := by
  refine ⟨fun j => ⟨encode_getx j, rfl⟩, fun j s hf hdone => ⟨(hexChar (digestNibble s.H j)).zeroExtend 32, ?_, ?_⟩,
    fun j s hf => ?_, fun j s hf hdone => ?_,
    fun w s hopc hlow => hostTransaction_malformed s hopc hlow fun idx hidx hlt => ?_⟩
  · rw [exec_getx, State.whenDone_of_done hf hdone]
  · rw [BitVec.zeroExtend, BitVec.toNat_setWidth_of_le (by decide), hexChar_toNat, digestNibble_toNat]
  · rw [exec_getx, State.whenDone_of_fault hf]
  · rw [exec_getx, State.whenDone_of_notDone hf hdone]
  · exact absurd hidx (Nat.not_le.mpr hlt)

end Sys2Proof.Machine
end

section
/-! PROOF (O32, O38). The bits of a rotation (00_scope.md R10) and the digest's nibbles and characters (42_round_pipeline.md
R150, 43_host_commands.md R176). -/

namespace Sys2Proof.Machine

/-- Settles O32: the rotation is the library's. -/
theorem rotationMovesBits : Obligations.RotationMovesBits := fun x _ _ hn hj => rotr_getLsbD x hn hj

/-- The high and the low nibble of a digest byte. -/
theorem digestByte_eq_nibbles (H : Vector Word 8) (m : Fin 32) :
    (digestByte H m).toNat =
      (digestNibble H (Fin.ofNat 64 (2 * m.val))).toNat * 16 + (digestNibble H (Fin.ofNat 64 (2 * m.val + 1))).toNat := by
  have hm := m.isLt
  have hhigh : (Fin.ofNat 64 (2 * m.val)).val = 2 * m.val := Nat.mod_eq_of_lt (by omega)
  have hlow : (Fin.ofNat 64 (2 * m.val + 1)).val = 2 * m.val + 1 := Nat.mod_eq_of_lt (by omega)
  have hword : 2 * m.val / 8 = m.val / 4 := by omega
  have hword' : (2 * m.val + 1) / 8 = m.val / 4 := by omega
  have hexp : 28 - 4 * (2 * m.val % 8) = 24 - 8 * (m.val % 4) + 4 := by omega
  have hexp' : 28 - 4 * ((2 * m.val + 1) % 8) = 24 - 8 * (m.val % 4) := by omega
  simp only [digestByte_toNat, digestNibble_toNat, hhigh, hlow, hword, hword', hexp, hexp', Nat.pow_add,
    ← Nat.div_div_eq_div_mul]
  omega

/-- The code of a digit, in the string of the digits. -/
theorem hexChar_eq_code (n : BitVec 4) : some (hexChar n).toNat = ("0123456789abcdef".toList[n.toNat]?).map Char.toNat := by
  revert n
  decide

/-- Settles O38: nibbles of words, of bytes, and their characters. -/
theorem digestCharactersAreNibbles : Obligations.DigestCharactersAreNibbles :=
  ⟨digestNibble_toNat, digestByte_eq_nibbles, hexChar_eq_code⟩

end Sys2Proof.Machine
end

section
/-! SUPPORT. The order of the sequencer's operations (30_encoding.md R88) on operations instead of words, and the state of a run
as the operation in `pc`, the flags, the lengths and how far the block loop has come. -/

namespace Sys2Proof

/-- The word of a well-formed operation is no other's. -/
theorem encode_injective {i j : Instr} (hi : i.wf = true) (hj : j.wf = true) (h : encode i = encode j) : i = j :=
  Except.ok.inj ((decode_encode hi).symm.trans (h ▸ decode_encode hj))

/-- Position 0 is no operation. -/
theorem encode_ne_zero {i : Instr} (hi : i.wf = true) : encode i ≠ 0x0000#16 := by
  intro h
  have hd := decode_encode hi
  rw [h] at hd
  cases hd

/-- The successor of a sequencer operation; `more` is FOLD's test `BI < NBLK`, and EMIT ends the run. -/
def Instr.successor (more : Bool) : Instr → Option Instr
  | .finit => some .hinit
  | .hinit => some .frame
  | .frame => some (.wload 0)
  | .wload k => some (if h : k.val < 15 then .wload ⟨k.val + 1, by omega⟩ else .wexp 16)
  | .wexp k => some (if h : k.val < 63 then .wexp ⟨k.val + 1, by omega⟩ else .seed)
  | .seed => some (.round 0)
  | .round k => some (if h : k.val < 63 then .round ⟨k.val + 1, by omega⟩ else .fold)
  | .fold => some (if more then .frame else .emit)
  | _ => none

/-- The successor is an operation of the sequencer too. -/
theorem Instr.successor_wf {more : Bool} {i j : Instr} (hwf : i.wf = true) (h : i.successor more = some j) :
    j.wf = true ∧ j.issuer = .sequencer := by
  cases i with
  | wexp k =>
    have hk : 16 ≤ k.val := of_decide_eq_true hwf
    simp only [Instr.successor] at h
    split at h <;> cases h
    · exact ⟨decide_eq_true (Nat.le_succ_of_le hk), rfl⟩
    · exact ⟨rfl, rfl⟩
  | wload k | round k | fold =>
    simp only [Instr.successor] at h
    split at h <;>
    · cases h
      exact ⟨rfl, rfl⟩
  | finit | hinit | frame | seed =>
    cases h
    exact ⟨rfl, rfl⟩
  | _ => cases h

namespace Machine

/-- A sequencer operation that completes, EMIT apart, leaves `pc` at its successor. -/
theorem exec_successor {i : Instr} {s t : State} (hi : i.issuer = .sequencer) (hne : i ≠ .emit) (hwf : i.wf = true)
    (h : exec i s = .next t) :
    ∃ j, i.successor (decide (s.BI.toNat < s.NBLK.toNat)) = some j ∧ t.pc = encode j := by
  cases i with
  | frame =>
    obtain ⟨⟨blk, rfl⟩, -⟩ := execFrame_next h
    exact ⟨_, rfl, rfl⟩
  | wload k =>
    cases h
    refine ⟨_, rfl, ?_⟩
    rw [State.goto_pc, nextPosition]
    split
    · rw [encode_wload]
    · rfl
  | wexp k =>
    cases (exec_wexp (of_decide_eq_true hwf) s).symm.trans h
    refine ⟨_, rfl, ?_⟩
    rw [State.goto_pc, nextPosition]
    split
    · rw [encode_wexp]
    · rfl
  | round k =>
    cases h
    refine ⟨_, rfl, ?_⟩
    rw [State.goto_pc, nextPosition]
    split
    · rw [encode_round]
    · rfl
  | fold =>
    cases h
    refine ⟨_, rfl, ?_⟩
    rw [State.goto_pc]
    by_cases hmore : s.BI.toNat < s.NBLK.toNat
    · simp only [hmore, decide_true, if_true]
      rfl
    · simp only [hmore, decide_false, if_false]
      rfl
  | finit | hinit | seed =>
    cases h
    exact ⟨_, rfl, rfl⟩
  | emit => exact absurd rfl hne
  | _ => cases hi

/-- How far the block loop has come at each position past FINIT: `BI` blocks of `N` are framed (10_state.md R44 (d)). -/
def framedAt (BI N : Nat) : Instr → Prop
  | .hinit => BI = 0
  | .frame => BI < N
  | .emit => BI = N
  | _ => 1 ≤ BI ∧ BI ≤ N

/-- The operations that leave the block counter alone keep the loop where it is. -/
theorem framedAt_successor {BI N : Nat} {i j : Instr} (hN : 1 ≤ N) (hfinit : i ≠ .finit) (hframe : i ≠ .frame)
    (hj : i.successor (decide (BI < N)) = some j) (h : framedAt BI N i) : framedAt BI N j := by
  cases i with
  | finit => exact absurd rfl hfinit
  | frame => exact absurd rfl hframe
  | hinit =>
    cases hj
    exact (show BI = 0 from h).trans_lt hN
  | wload k | wexp k | round k =>
    simp only [Instr.successor] at hj
    split at hj <;>
    · cases hj
      exact h
  | seed =>
    cases hj
    exact h
  | fold =>
    obtain ⟨-, hle⟩ := h
    by_cases hmore : BI < N
    · simp only [Instr.successor, hmore, decide_true, if_true] at hj
      cases hj
      exact hmore
    · simp only [Instr.successor, hmore, decide_false] at hj
      cases hj
      exact Nat.le_antisymm hle (Nat.not_lt.mp hmore)
  | _ => cases hj

/-- A state of a run with operation `i` in `pc`. -/
structure Running (i : Instr) (s : State) : Prop where
  wf : i.wf = true
  issuer : i.issuer = .sequencer
  pc : s.pc = encode i
  msg_wf : s.msg.wf = true
  done : s.DONE = false
  fault : s.FAULT = false
  cause : s.CAUSE = 0#4
  lengths : i ≠ .finit → s.BITLEN = bitLength s.LEN ∧ s.NBLK = blockCount s.LEN
  framed : i ≠ .finit → framedAt s.BI.toNat s.NBLK.toNat i

/-- At least one block is there to frame, for every length. -/
theorem Running.blocks_pos {i : Instr} {s : State} (h : Running i s) (hi : i ≠ .finit) : 1 ≤ s.NBLK.toNat := by
  rw [(h.lengths hi).2, blockCount_toNat]
  exact Nat.le_add_left ..

/-- Which operation is in `pc`, from its word. -/
theorem Running.eq_of_pc {i j : Instr} {s : State} (h : Running i s) (hj : j.wf = true) (hpc : s.pc = encode j) : i = j :=
  encode_injective h.wf hj (h.pc.symm.trans hpc)

theorem Running.sequencerStep_eq {i : Instr} {s : State} (h : Running i s) : sequencerStep s = exec i s :=
  sequencerStep_of_decode (by rw [h.pc, decode_encode h.wf]) h.issuer

/-- The lengths that the operations past FINIT find, and leave as they are. -/
theorem exec_keeps_lengths {i : Instr} {s t : State} (hwf : i.wf = true) (hi : i.issuer = .sequencer) (hfinit : i ≠ .finit)
    (h : exec i s = .next t) : t.BITLEN = s.BITLEN ∧ t.NBLK = s.NBLK := by
  have hbit : Reg.BITLEN ∉ writeSet i := by
    cases i with
    | finit => exact absurd rfl hfinit
    | _ => simp [writeSet]
  have hblk : Reg.NBLK ∉ writeSet i := by
    cases i with
    | finit => exact absurd rfl hfinit
    | _ => simp [writeSet]
  exact ⟨(exec_same_off_writeSet hwf h hbit).symm, (exec_same_off_writeSet hwf h hblk).symm⟩

theorem exec_keeps_LEN {i : Instr} {s t : State} (hwf : i.wf = true) (hi : i.issuer = .sequencer) (h : exec i s = .next t) :
    t.LEN = s.LEN := by
  have hlen : Reg.LEN ∉ writeSet i := by
    cases i with
    | setlen => cases hi
    | _ => simp [writeSet]
  exact (exec_same_off_writeSet hwf h hlen).symm

theorem exec_keeps_fault {i : Instr} {s t : State} (hwf : i.wf = true) (h : exec i s = .next t) :
    t.FAULT = s.FAULT ∧ t.CAUSE = s.CAUSE := by
  have hfault : Reg.faultCause ∉ writeSet i := by cases i <;> simp [writeSet]
  obtain ⟨hf, hc⟩ := exec_same_off_writeSet hwf h hfault
  exact ⟨hf.symm, hc.symm⟩

theorem exec_keeps_DONE {i : Instr} {s t : State} (hwf : i.wf = true) (hi : i.issuer = .sequencer) (hne : i ≠ .emit)
    (h : exec i s = .next t) : t.DONE = s.DONE := by
  have hdone : Reg.DONE ∉ writeSet i := by
    cases i with
    | emit => exact absurd rfl hne
    | start => cases hi
    | _ => simp [writeSet]
  exact (exec_same_off_writeSet hwf h hdone).symm

theorem exec_keeps_BI {i : Instr} {s t : State} (hwf : i.wf = true) (hfinit : i ≠ .finit) (hframe : i ≠ .frame)
    (h : exec i s = .next t) : t.BI = s.BI := by
  have hbi : Reg.BI ∉ writeSet i := by
    cases i with
    | finit => exact absurd rfl hfinit
    | frame => exact absurd rfl hframe
    | _ => simp [writeSet]
  exact (exec_same_off_writeSet hwf h hbi).symm

/-- The block loop after an operation of a run. -/
theorem Running.framed_step {i j : Instr} {s t : State} (h : Running i s) (ht : exec i s = .next t)
    (hj : i.successor (decide (s.BI.toNat < s.NBLK.toNat)) = some j) : framedAt t.BI.toNat t.NBLK.toNat j := by
  by_cases hfinit : i = .finit
  · subst hfinit
    cases ht
    cases hj
    rfl
  have hframed := h.framed hfinit
  obtain ⟨-, hblk⟩ := exec_keeps_lengths h.wf h.issuer hfinit ht
  rw [hblk]
  by_cases hframe : i = .frame
  · subst hframe
    cases hj
    rw [execFrame_BI ht hframed]
    exact ⟨Nat.le_add_left .., hframed⟩
  · rw [exec_keeps_BI h.wf hfinit hframe ht]
    exact framedAt_successor (h.blocks_pos hfinit) hfinit hframe hj hframed

/-- An operation of a run, EMIT apart, leads to the next position of the run. -/
theorem Running.step {i : Instr} {s t : State} (h : Running i s) (hne : i ≠ .emit) (ht : exec i s = .next t) :
    ∃ j, i.successor (decide (s.BI.toNat < s.NBLK.toNat)) = some j ∧ Running j t := by
  obtain ⟨j, hj, hpc⟩ := exec_successor h.issuer hne h.wf ht
  obtain ⟨hmsg, -, -⟩ := exec_keeps ht
  obtain ⟨hfault, hcause⟩ := exec_keeps_fault h.wf ht
  obtain ⟨hwf, hissuer⟩ := Instr.successor_wf h.wf hj
  refine ⟨j, hj, hwf, hissuer, hpc, by rw [hmsg, h.msg_wf], by rw [exec_keeps_DONE h.wf h.issuer hne ht, h.done],
    by rw [hfault, h.fault], by rw [hcause, h.cause], fun _ => ?_, fun _ => h.framed_step ht hj⟩
  by_cases hfinit : i = .finit
  · subst hfinit
    cases ht
    exact ⟨rfl, rfl⟩
  · obtain ⟨hbit, hblk⟩ := exec_keeps_lengths h.wf h.issuer hfinit ht
    rw [hbit, hblk, exec_keeps_LEN h.wf h.issuer ht]
    exact h.lengths hfinit

end Machine

end Sys2Proof
end

section
/-! PROOF (O50, O49, O51, O52). The invariant of 10_state.md R44: a state that keeps it is halted or in a run; it holds at reset
and every turn keeps it, so InvariantFault is out of reach (60_exceptions.md R207); and the layout of STATUS (R37). -/

namespace Sys2Proof.Machine

/-! ## The invariant, halted and in a run -/

/-- While the core is halted the invariant speaks of MSG and the flags only. -/
theorem StateInv.of_halted {s : State} (hpc : s.pc = 0x0000#16) (hmsg : s.msg.wf = true)
    (hdone : s.DONE = true → s.FAULT = false ∧ s.BI = s.NBLK) (hfault : s.FAULT = true → s.DONE = false ∧ s.CAUSE = 5#4)
    (hcause : s.FAULT = false → s.CAUSE = 0#4) : StateInv s := by
  have halted : ∀ {w : OpWord} {p : Prop}, w ≠ 0x0000#16 → s.pc = w → p := fun hw h => absurd (h.symm.trans hpc) hw
  have notPast : ∀ {p : Prop}, pastFinit s.pc → p := fun h => absurd hpc h.1
  exact {
    msg_wf := hmsg
    legal_pc := by rw [hpc]; rfl
    done_halted := fun h => ⟨hpc, (hdone h).1⟩
    fault_halted := fun h => ⟨hpc, hfault h⟩
    no_cause := hcause
    lengths := notPast
    blocks := notPast
    none_framed := halted (by decide)
    block_remains := halted (by decide)
    one_framed := notPast
    all_framed := halted (by decide)
    done_framed := fun h => (hdone h).2 }

theorem framedAt_le {BI N : Nat} {i : Instr} (h : framedAt BI N i) : BI ≤ N := by
  cases i with
  | hinit => exact (Nat.le_of_eq h).trans (Nat.zero_le N)
  | frame => exact Nat.le_of_lt h
  | emit => exact Nat.le_of_eq h
  | _ => exact h.2

theorem framedAt_pos {BI N : Nat} {i : Instr} (hN : 1 ≤ N) (hhinit : i ≠ .hinit) (hframe : i ≠ .frame)
    (h : framedAt BI N i) : 1 ≤ BI := by
  cases i with
  | hinit => exact absurd rfl hhinit
  | frame => exact absurd rfl hframe
  | emit => exact hN.trans_eq h.symm
  | _ => exact h.1

/-- A state of a run keeps the invariant. -/
theorem Running.stateInv {i : Instr} {s : State} (h : Running i s) : StateInv s := by
  have past : pastFinit s.pc → i ≠ .finit := by
    rintro hpast rfl
    exact hpast.2 h.pc
  exact {
    msg_wf := h.msg_wf
    legal_pc := (legalPc_iff s.pc).mpr (.inr ⟨i, by rw [h.pc, decode_encode h.wf], h.issuer⟩)
    done_halted := fun hd => absurd hd (ne_true_of_eq_false h.done)
    fault_halted := fun hf => absurd hf (ne_true_of_eq_false h.fault)
    no_cause := fun _ => h.cause
    lengths := fun hpast => h.lengths (past hpast)
    blocks := fun hpast => ⟨framedAt_le (h.framed (past hpast)), h.blocks_pos (past hpast)⟩
    none_framed := fun hpc => by
      obtain rfl := h.eq_of_pc (j := .hinit) rfl hpc
      exact BitVec.eq_of_toNat_eq (h.framed (by decide))
    block_remains := fun hpc => by
      obtain rfl := h.eq_of_pc (j := .frame) rfl hpc
      exact h.framed (by decide)
    one_framed := fun hpast hhinit hframe => by
      refine framedAt_pos (h.blocks_pos (past hpast)) ?_ ?_ (h.framed (past hpast))
      · rintro rfl
        exact hhinit h.pc
      · rintro rfl
        exact hframe h.pc
    all_framed := fun hpc => by
      obtain rfl := h.eq_of_pc (j := .emit) rfl hpc
      exact BitVec.eq_of_toNat_eq (h.framed (by decide))
    done_framed := fun hd => absurd hd (ne_true_of_eq_false h.done) }

/-- How far the block loop has come, from the invariant. -/
theorem StateInv.framedAt {i : Instr} {s : State} (h : StateInv s) (hwf : i.wf = true) (hfinit : i ≠ .finit)
    (hpc : s.pc = encode i) : framedAt s.BI.toNat s.NBLK.toNat i := by
  have away : ∀ {j : Instr}, j.wf = true → i ≠ j → s.pc ≠ encode j := fun hj hne heq =>
    hne (encode_injective hwf hj (hpc.symm.trans heq))
  have hpast : pastFinit s.pc := ⟨hpc ▸ encode_ne_zero hwf, away (j := .finit) rfl hfinit⟩
  cases i with
  | hinit => exact congrArg BitVec.toNat (h.none_framed hpc)
  | frame => exact h.block_remains hpc
  | emit => exact congrArg BitVec.toNat (h.all_framed hpc)
  | _ =>
    exact ⟨h.one_framed hpast (away (j := .hinit) rfl nofun) (away (j := .frame) rfl nofun), (h.blocks hpast).1⟩

/-- A state that keeps the invariant and is not halted is a state of a run. -/
theorem StateInv.running_of_ne_zero {s : State} (h : StateInv s) (hpc : s.pc ≠ 0x0000#16) : ∃ i, Running i s := by
  obtain ⟨hfault, hdone, hcause⟩ := h.running hpc
  rcases (legalPc_iff s.pc).mp h.legal_pc with h0 | ⟨i, hd, hi⟩
  · exact absurd h0 hpc
  obtain ⟨hwf, henc⟩ := (decode_eq_ok_iff s.pc i).mp hd
  refine ⟨i, hwf, hi, henc.symm, h.msg_wf, hdone, hfault, hcause, fun hfinit => h.lengths ⟨hpc, fun h1 => ?_⟩,
    fun hfinit => h.framedAt hwf hfinit henc.symm⟩
  exact hfinit (encode_injective (j := .finit) hwf rfl (henc.trans h1))

/-! ## Every turn keeps the invariant -/

/-- EMIT ends a run with every block framed. -/
theorem Running.emit {s : State} (h : Running .emit s) : StateInv ({ s with DONE := true }.goto 0x0000#16) :=
  StateInv.of_halted rfl h.msg_wf (fun _ => ⟨h.fault, BitVec.eq_of_toNat_eq (h.framed (by decide))⟩)
    (fun hf => absurd hf (ne_true_of_eq_false h.fault)) (fun _ => h.cause)

theorem StateInv.sequencerStep {s t : State} (h : StateInv s) (ht : sequencerStep s = .next t) : StateInv t := by
  by_cases hpc : s.pc = 0x0000#16
  · cases (sequencerStep_of_halted hpc).symm.trans ht
    exact h
  obtain ⟨i, hrun⟩ := h.running_of_ne_zero hpc
  have he := hrun.sequencerStep_eq.symm.trans ht
  by_cases hi : i = .emit
  · subst hi
    cases he
    exact hrun.emit
  · obtain ⟨j, -, hj⟩ := hrun.step hi he
    exact hj.stateInv

/-- The ports are no part of the invariant. -/
theorem StateInv.withPorts {s : State} (h : StateInv s) (din : DWord) (resp : Option Response) (sched : List Turn) :
    StateInv { s with din := din, response := resp, schedule := sched } :=
  h.congr rfl rfl rfl rfl h.msg_wf rfl rfl rfl rfl

/-- START puts a core without a fault at the head of a run. -/
theorem StateInv.start {s : State} (h : StateInv s) (hfault : s.FAULT = false) (resp : Option Response) :
    StateInv { s with DONE := false, pc := 0x1000#16, response := resp } := by
  have hrun : Running .finit { s with DONE := false, pc := 0x1000#16, response := resp } :=
    ⟨rfl, rfl, rfl, h.msg_wf, rfl, hfault, h.no_cause hfault, fun hne => absurd rfl hne, fun hne => absurd rfl hne⟩
  exact hrun.stateInv

/-- SETLEN changes LEN while the core is halted. -/
theorem StateInv.setlen {s : State} (h : StateInv s) (hpc : s.pc = 0x0000#16) (len : DWord) (resp : Option Response) :
    StateInv { s with LEN := len, response := resp } :=
  StateInv.of_halted hpc h.msg_wf (fun hd => ⟨(h.done_halted hd).2, h.done_framed hd⟩) (fun hf => (h.fault_halted hf).2)
    h.no_cause

theorem StateInv.hostTransaction {opw : OpWord} {s t : State} (h : StateInv s) (ht : hostTransaction opw s = .next t) :
    StateInv t := by
  rcases hostTransaction_cases opw s with ⟨-, hs⟩ | ⟨i, -, hi, hs⟩
  · cases hs.symm.trans ht
    exact h.withPorts s.din _ s.schedule
  rcases exec_host_cases s hi with ⟨r, he⟩ | ⟨-, hpc, -, he⟩ | ⟨hfault, -, -, he⟩
  · cases (hs.trans he).symm.trans ht
    exact h.withPorts s.din _ s.schedule
  · cases (hs.trans he).symm.trans ht
    exact h.setlen hpc s.din _
  · cases (hs.trans he).symm.trans ht
    exact h.start hfault _

theorem StateInv.takeTurn {turn : Turn} {s t : State} (h : StateInv s) (ht : takeTurn turn s = .next t) : StateInv t := by
  cases turn with
  | hostOp opw din => exact (h.withPorts din s.response s.schedule).hostTransaction ht
  | sequencer => exact h.sequencerStep ht
  | reset =>
    cases ht
    exact StateInv.of_halted rfl h.msg_wf nofun nofun fun _ => rfl
  | writeMsg offset b =>
    cases ht
    exact h.congr rfl rfl rfl rfl (s.hostWrite_wf offset b h.msg_wf) rfl rfl rfl rfl

theorem StateInv.step {s t : State} (h : StateInv s) (ht : step s = .next t) : StateInv t := by
  rcases step_cases s with ⟨-, hs⟩ | ⟨turn, rest, -, hs⟩
  · exact h.sequencerStep (hs.symm.trans ht)
  · exact (h.withPorts s.din s.response rest).takeTurn (hs.symm.trans ht)

/-- Settles O50: a step is a turn, and every turn keeps the invariant. -/
theorem invariantKeptByEveryStep : Obligations.InvariantKeptByEveryStep := fun _ _ h ht => h.step ht

/-- Settles O49: reset is halted, with no flag set and no byte in MSG. -/
theorem invariantHoldsAtReset : Obligations.InvariantHoldsAtReset :=
  StateInv.of_halted rfl State.reset_msg_wf nofun nofun fun _ => rfl

/-! ## InvariantFault is out of reach -/

theorem hostTransaction_keeps_FAULT {opw : OpWord} {s t : State} (h : hostTransaction opw s = .next t) :
    t.FAULT = s.FAULT := by
  rcases hostTransaction_cases opw s with ⟨-, hs⟩ | ⟨i, hd, -, hs⟩
  · cases hs.symm.trans h
    rfl
  · exact (exec_keeps_fault ((decode_eq_ok_iff opw i).mp hd).1 (hs.symm.trans h)).1

/-- From a legal position the sequencer raises no fault. -/
theorem sequencerStep_keeps_FAULT {s t : State} (hpc : legalPc s.pc = true) (h : sequencerStep s = .next t) :
    t.FAULT = s.FAULT := by
  rcases sequencerStep_legal hpc with ⟨-, hs⟩ | ⟨i, hwf, -, -, hs⟩
  · cases hs.symm.trans h
    rfl
  · exact (exec_keeps_fault hwf (hs.symm.trans h)).1

/-- A turn sets FAULT only where `pc` is not legal. -/
theorem takeTurn_FAULT {turn : Turn} {s t : State} (hpc : legalPc s.pc = true) (hfault : s.FAULT = false)
    (h : takeTurn turn s = .next t) : t.FAULT = false := by
  cases turn with
  | hostOp opw din => exact (hostTransaction_keeps_FAULT (s := { s with din := din }) h).trans hfault
  | sequencer => exact (sequencerStep_keeps_FAULT hpc h).trans hfault
  | reset =>
    cases h
    rfl
  | writeMsg offset b =>
    cases h
    exact hfault

/-- Settles O51: under the invariant `pc` is legal. -/
theorem invariantFaultIsUnreachable : Obligations.InvariantFaultIsUnreachable := by
  intro s t hinv hfault ht
  rcases step_cases s with ⟨-, hs⟩ | ⟨turn, rest, -, hs⟩
  · exact takeTurn_FAULT (turn := .sequencer) hinv.legal_pc hfault (hs.symm.trans ht)
  · exact takeTurn_FAULT (s := { s with schedule := rest }) hinv.legal_pc hfault (hs.symm.trans ht)

/-! ## STATUS -/

/-- The fields of a word laid out as STATUS is. -/
theorem status_layout : ∀ (cause : BitVec 4) (fault done busy : Bool),
    let w : Word := (cause ++ 0#1 ++ BitVec.ofBool fault ++ BitVec.ofBool done ++ BitVec.ofBool busy).zeroExtend 32
    w.getLsbD 0 = busy ∧ w.getLsbD 1 = done ∧ w.getLsbD 2 = fault ∧ w.getLsbD 3 = false ∧
      w.extractLsb 7 4 = cause ∧ w.extractLsb 31 8 = 0#24 := by
  decide

/-- Settles O52: the layout is that of the parts STATUS is built from, the values are those of R37. -/
theorem statusLayoutAndValues : Obligations.StatusLayoutAndValues := fun s => by
  obtain ⟨h0, h1, h2, h3, h4, h8⟩ := status_layout s.CAUSE s.FAULT s.DONE s.busy
  exact ⟨h0, h1, h2, h3, h4, h8, StateInv.status_values⟩

end Sys2Proof.Machine
end

section
/-! PROOF (O40). The tables K and IV against the roots of the primes (10_state.md R33, R34): the primes by a sieve, and
each entry between the two integers that bound its root. -/

namespace Sys2Proof.Machine

/-- The numbers from 2 to `n` that no smaller number below `d` divides. -/
def sieve (d n : Nat) : List Nat := (List.range (n + 1)).filter fun p => 2 ≤ p ∧ ∀ m < d, 2 ≤ m → m < p → ¬m ∣ p

/-- Divisors up to the square root decide: below `d * d` the sieve leaves the primes. -/
theorem mem_sieve {d n : Nat} (hd : n < d * d) (p : Nat) : p ∈ sieve d n ↔ p.Prime ∧ p ≤ n := by
  rw [sieve, List.mem_filter, List.mem_range, decide_eq_true_iff, Nat.lt_succ_iff, and_comm]
  refine and_congr_left fun hn => ⟨fun ⟨h2, h⟩ => ?_, fun hp => ⟨hp.two_le, fun m _ h2 hlt hdvd => ?_⟩⟩
  · refine Nat.prime_def_le_sqrt.mpr ⟨h2, fun m hm2 hsqrt => h m ?_ hm2 ?_⟩
    · exact Nat.mul_self_lt_mul_self_iff.mp ((Nat.le_sqrt.mp hsqrt).trans_lt (hn.trans_lt hd))
    · exact hsqrt.trans_lt (Nat.sqrt_lt_self h2)
  · exact (Nat.prime_def_lt'.mp hp).2 m h2 hlt hdvd

theorem sieve_sorted (d n : Nat) : (sieve d n).Pairwise (· < ·) := List.pairwise_lt_range.filter _

/-- `x` is the first 32 bits of the fractional part of the `e`-th root of `p`, whose whole part is below 7. -/
def LeadingFraction (e p : Nat) (x : Word) : Prop :=
  ∃ whole < 7, (whole * 2 ^ 32 + x.toNat) ^ e ≤ p * 2 ^ (32 * e) ∧ p * 2 ^ (32 * e) < (whole * 2 ^ 32 + x.toNat + 1) ^ e

/-- A table checked against a list of numbers, entry by entry. -/
theorem leadingFraction_of_zip {e n : Nat} {ps : List Nat} {T : Vector Word n} (hlen : ps.length = n)
    (h : ∀ x ∈ ps.zip T.toList, LeadingFraction e x.1 x.2) (i : Nat) (hi : i < n) :
    ∃ p whole, ps[i]? = some p ∧ (whole * 2 ^ 32 + T[i].toNat) ^ e ≤ p * 2 ^ (32 * e) ∧
      p * 2 ^ (32 * e) < (whole * 2 ^ 32 + T[i].toNat + 1) ^ e := by
  have hzip : i < (ps.zip T.toList).length := by simp [hlen, hi]
  have hentry := h _ (List.getElem_mem hzip)
  rw [List.getElem_zip, Vector.getElem_toList] at hentry
  obtain ⟨whole, -, hlo, hhi⟩ := hentry
  exact ⟨_, whole, List.getElem?_eq_getElem (hlen.symm ▸ hi), hlo, hhi⟩

theorem sieve_311_length : (sieve 18 311).length = 64 := by decide +kernel

theorem K_leadingFractions : ∀ x ∈ (sieve 18 311).zip Config.K.toList, LeadingFraction 3 x.1 x.2 := by
  unfold LeadingFraction
  decide +kernel

theorem sieve_19_length : (sieve 5 19).length = 8 := by decide +kernel

theorem IV_leadingFractions : ∀ x ∈ (sieve 5 19).zip Config.IV.toList, LeadingFraction 2 x.1 x.2 := by
  unfold LeadingFraction
  decide +kernel

/-- Settles O40: the lists of primes by the sieve, the entries by their integer bounds. -/
theorem tablesAreRootsOfPrimes : Obligations.TablesAreRootsOfPrimes :=
  ⟨⟨sieve 18 311, sieve_311_length, sieve_sorted 18 311, mem_sieve (by decide),
      leadingFraction_of_zip sieve_311_length K_leadingFractions⟩,
    ⟨sieve 5 19, sieve_19_length, sieve_sorted 5 19, mem_sieve (by decide),
      leadingFraction_of_zip sieve_19_length IV_leadingFractions⟩⟩

end Sys2Proof.Machine
end

section
/-! PROOF (O54, O55). The sequencer alone: the schedule of a block (41_schedule_expander.md R124) and its compression
(42_round_pipeline.md R152), as inductions over the steps. -/

namespace Sys2Proof.Machine

/-! ## Runs of the sequencer alone -/

/-- With no turn to come a step is the operation in `pc`. -/
theorem step_of_pc {i : Instr} {s : State} (hsched : s.schedule = []) (hwf : i.wf = true) (hi : i.issuer = .sequencer)
    (hpc : s.pc = encode i) : step s = exec i s := by
  rw [step_of_empty hsched]
  exact sequencerStep_of_decode (by rw [hpc, decode_encode hwf]) hi

/-- One more step at the end of a run. -/
theorem run_snoc {n : Nat} {s t u : State} (h : Host.Core.run Sys2Proof.core n s = .next t) (ht : step t = .next u) :
    Host.Core.run Sys2Proof.core (n + 1) s = .next u := by
  rw [run_add n 1 h, run_succ 0 ht]
  rfl

/-- What holds at the start and is carried from each step to the next holds at the end. -/
theorem run_induction {P : Nat → State → Prop} {n : Nat} {s : State}
    (hstep : ∀ k t, k < n → P k t → ∃ u, step t = .next u ∧ P (k + 1) u) (hs : P 0 s) :
    ∃ t, Host.Core.run Sys2Proof.core n s = .next t ∧ P n t := by
  induction n with
  | zero => exact ⟨s, rfl, hs⟩
  | succ n ih =>
    obtain ⟨t, ht, hP⟩ := ih fun k t hk => hstep k t (Nat.lt_succ_of_lt hk)
    obtain ⟨u, hu, hP'⟩ := hstep n t (Nat.lt_succ_self n) hP
    exact ⟨u, run_snoc ht hu, hP'⟩

/-- Position number `k` of an indexed operation whose indices end at `n`: its word, or the operation after the last. -/
def indexedPosition (base : OpWord) (n : Nat) (after : OpWord) (k : Nat) : OpWord :=
  if k < n then base + BitVec.ofNat 16 k else after

theorem indexedPosition_of_lt {base after : OpWord} {n k : Nat} (h : k < n) :
    indexedPosition base n after k = base + BitVec.ofNat 16 k := if_pos h

/-- The successor of an index is the next position. -/
theorem nextPosition_eq (base after : OpWord) (last k : Nat) :
    nextPosition base k last after = indexedPosition base (last + 1) after (k + 1) := by
  simp only [nextPosition, indexedPosition, Nat.add_lt_add_iff_right]

/-! ## The schedule -/

/-- `W` holds the words `w` at its head; `s` is otherwise as it was, at position `pc`. -/
def ScheduleAt (s : State) (w : List Word) (pc : OpWord) (t : State) : Prop :=
  t = { s with W := t.W, pc := pc } ∧ t.W.toList.take w.length = w

theorem ScheduleAt.start {s : State} {w : List Word} {pc : OpWord} (hpc : s.pc = pc) (hW : s.W.toList.take w.length = w) :
    ScheduleAt s w pc s := ⟨by rw [← hpc], hW⟩

/-- Writing one more word of the schedule. -/
theorem ScheduleAt.append {s t : State} {w : List Word} {pc : OpWord} {k : Nat} (h : ScheduleAt s w pc t)
    (hw : w.length = k) (hk : k < 64) (x : Word) (pc' : OpWord) :
    ScheduleAt s (w ++ [x]) pc' ({ t with W := t.W.set k x }.goto pc') := by
  obtain ⟨ht, htake⟩ := h
  refine ⟨?_, ?_⟩
  · rw [ht]
    rfl
  · rw [State.goto_W, List.length_append, List.length_singleton, hw, take_succ_set _ _ hk, ← hw, htake]

/-- The first `k` words of a block. -/
def blockWords (B : Vector Byte 64) (k : Nat) : List Word := ((List.finRange 16).map (blockWord B)).take k

theorem blockWords_length (B : Vector Byte 64) {k : Nat} (hk : k ≤ 16) : (blockWords B k).length = k := by
  simp [blockWords, hk]

theorem blockWords_succ (B : Vector Byte 64) {k : Nat} (hk : k < 16) :
    blockWords B (k + 1) = blockWords B k ++ [blockWord B ⟨k, hk⟩] := by
  rw [blockWords, List.take_succ_eq_append_getElem (by simpa using hk)]
  simp [blockWords]

/-- Sixteen WLOADs. -/
theorem run_wloads {s : State} (hpc : s.pc = 0x2000#16) (hsched : s.schedule = []) :
    ∃ t, Host.Core.run Sys2Proof.core 16 s = .next t ∧ ScheduleAt s (blockWords s.BLK 16) 0x2110#16 t := by
  refine run_induction (P := fun k => ScheduleAt s (blockWords s.BLK k) (indexedPosition 0x2000#16 16 0x2110#16 k))
    (fun k t hk hP => ?_) (ScheduleAt.start hpc rfl)
  have ht : t.schedule = [] ∧ t.BLK = s.BLK ∧ t.pc = encode (.wload ⟨k, hk⟩) := by
    rw [hP.1, encode_wload, indexedPosition_of_lt hk]
    exact ⟨hsched, rfl, rfl⟩
  obtain ⟨hsched', hBLK, hpc'⟩ := ht
  have hlen := blockWords_length s.BLK hk.le
  have hword : blockWord s.BLK ⟨k, hk⟩ = blockWord t.BLK ⟨k, hk⟩ := by rw [hBLK]
  rw [step_of_pc hsched' rfl rfl hpc', exec_wload, nextPosition_eq, blockWords_succ _ hk, hword]
  exact ⟨_, rfl, hP.append hlen (by omega) _ _⟩

/-- The words a step of WEXP reads are the words the recurrence reads. -/
theorem take_getD {W : Vector Word 64} {n i : Nat} (hn : n ≤ 64) (hi : i < n) : (W.toList.take n).getD i 0 = W[i] := by
  rw [List.getD_eq_getElem?_getD, List.getElem?_take_of_lt hi, Vector.getElem?_toList, Vector.getElem?_eq_getElem (by omega),
    Option.getD_some]

theorem nextScheduleWord_take {W : Vector Word 64} {n : Nat} (h16 : 16 ≤ n) (hn : n < 64) :
    nextScheduleWord (W.toList.take n) = expandWord W[n - 16] W[n - 15] W[n - 7] W[n - 2] := by
  have hlen : (W.toList.take n).length = n := by simp [hn.le]
  rw [nextScheduleWord, hlen, take_getD hn.le (by omega), take_getD hn.le (by omega), take_getD hn.le (by omega),
    take_getD hn.le (by omega)]

/-- Forty-eight WEXPs. -/
theorem run_wexps {s : State} {w : List Word} (hw : w.length = 16) (hW : s.W.toList.take 16 = w) (hpc : s.pc = 0x2110#16)
    (hsched : s.schedule = []) :
    ∃ t, Host.Core.run Sys2Proof.core 48 s = .next t ∧ ScheduleAt s (growSchedule 48 w) 0x3100#16 t := by
  refine run_induction
    (P := fun k => ScheduleAt s (growSchedule k w) (indexedPosition 0x2100#16 64 0x3100#16 (16 + k)))
    (fun k t hk hP => ?_) (ScheduleAt.start hpc (hw.symm ▸ hW))
  have h16 : 16 ≤ 16 + k := Nat.le_add_right 16 k
  have h64 : 16 + k < 64 := by omega
  have ht : t.schedule = [] ∧ t.pc = encode (.wexp ⟨16 + k, h64⟩) := by
    rw [hP.1, encode_wexp, indexedPosition_of_lt h64]
    exact ⟨hsched, rfl⟩
  obtain ⟨hsched', hpc'⟩ := ht
  have hlen : (growSchedule k w).length = 16 + k := by rw [growSchedule_length, hw]
  have htake : t.W.toList.take (16 + k) = growSchedule k w := hlen ▸ hP.2
  rw [step_of_pc (i := .wexp ⟨16 + k, h64⟩) hsched' (decide_eq_true h16) rfl hpc', exec_wexp h16, nextPosition_eq,
    growSchedule_succ]
  refine ⟨_, rfl, ?_⟩
  rw [← nextScheduleWord_take h16 h64, htake]
  exact hP.append hlen h64 _ _

/-- Settles O54: the WLOADs leave the block's words, the WEXPs grow them to the schedule. -/
theorem scheduleIsAFunctionOfTheBlock : Obligations.ScheduleIsAFunctionOfTheBlock := by
  intro s hpc hsched
  obtain ⟨t, ht, hframe, hwords⟩ := run_wloads hpc hsched
  rw [blockWords_length _ (Nat.le_refl 16)] at hwords
  obtain ⟨u, hu, hframe', hwords'⟩ := run_wexps (s := t) (blockWords_length s.BLK (Nat.le_refl 16)) hwords (by rw [hframe])
    (by rw [hframe]; exact hsched)
  refine ⟨u, ?_, ?_, ?_⟩
  · rw [run_add 16 48 ht, hu]
  · rw [hframe', hframe]
  · rw [growSchedule_length, blockWords_length _ (Nat.le_refl 16), List.take_of_length_le (by simp)] at hwords'
    rw [hwords', scheduleOf, blockWords, List.take_of_length_le (by simp)]

/-! ## The rounds -/

/-- The constants and schedule words of the first `k` rounds. -/
def roundInputs (W : Vector Word 64) (k : Nat) : List (Word × Word) := (Config.K.toList.zip W.toList).take k

theorem roundInputs_succ (W : Vector Word 64) {k : Nat} (hk : k < 64) :
    roundInputs W (k + 1) = roundInputs W k ++ [(Config.K[k], W[k])] := by
  rw [roundInputs, List.take_succ_eq_append_getElem (by simpa using hk)]
  simp [roundInputs]

/-- `k` rounds from the State: the working variables after them, and the position; `s` is otherwise as it was. -/
def RoundsAt (s : State) (k : Nat) (t : State) : Prop :=
  t = { s with V := t.V, pc := indexedPosition 0x3200#16 64 0x3300#16 k } ∧ t.V = roundsOver (roundInputs s.W k) s.H

/-- SEED and sixty-four ROUNDs. -/
theorem run_rounds {s : State} (hpc : s.pc = 0x3100#16) (hsched : s.schedule = []) :
    ∃ t, Host.Core.run Sys2Proof.core 65 s = .next t ∧ RoundsAt s 64 t := by
  have hseed : step s = .next ({ s with V := s.H }.goto 0x3200#16) :=
    (step_of_pc (i := .seed) hsched rfl rfl hpc).trans (exec_seed s)
  rw [run_succ 64 hseed]
  refine run_induction (P := RoundsAt s) (fun k t hk hP => ?_) ⟨rfl, rfl⟩
  have ht : t.schedule = [] ∧ t.pc = encode (.round ⟨k, hk⟩) := by
    rw [hP.1, encode_round, indexedPosition_of_lt hk]
    exact ⟨hsched, rfl⟩
  obtain ⟨hsched', hpc'⟩ := ht
  refine ⟨_, (step_of_pc hsched' rfl rfl hpc').trans (exec_round _ t), ?_, ?_⟩
  · rw [nextPosition_eq, hP.1]
    rfl
  · have hW : t.W = s.W := by rw [hP.1]
    rw [roundInputs_succ _ hk, roundsOver_append_single, ← hP.2, ← hW]
    rfl

/-- Settles O55: the rounds over the schedule of the block, and the fold. -/
theorem roundsAndFoldCompress : Obligations.RoundsAndFoldCompress := by
  intro s B hpc hsched hW
  obtain ⟨t, ht, hframe, hV⟩ := run_rounds hpc hsched
  have hsched' : t.schedule = [] := by rw [hframe]; exact hsched
  have hpc' : t.pc = 0x3300#16 := by rw [hframe]; rfl
  have hfold := (step_of_pc (i := .fold) hsched' rfl rfl hpc').trans (exec_fold t)
  refine ⟨_, run_snoc ht hfold, ?_, ?_, ?_⟩
  · rw [hframe]
    rfl
  · have hinputs : roundInputs s.W 64 = Config.K.toList.zip (scheduleOf B) := by
      rw [roundInputs, List.take_of_length_le (by simp), hW]
    rw [State.goto_H, hV, hinputs, compress, hframe]
  · rw [hframe]
    rfl

end Sys2Proof.Machine
end

section
/-! PROOF (O56, O58). A whole run of the sequencer (42_round_pipeline.md R152, 30_encoding.md R90): block by block the State is
the reference's, so EMIT finds the digest of the message. -/

namespace Sys2Proof.Machine

/-! ## One block -/

/-- The head of the block loop in a run over `m`: `n` blocks are done, and `s` is otherwise as it was. -/
structure LoopAt (m : List Byte) (s : State) (n : Nat) (t : State) : Prop where
  frame : t = { s with H := t.H, V := t.V, W := t.W, BLK := t.BLK, BI := t.BI, pc := t.pc, freeCount := t.freeCount }
  digest : t.H = stateAfter m n
  framed : t.BI.toNat = n
  pc : t.pc = if n < s.NBLK.toNat then 0x1100#16 else 0x3400#16

section

variable {m : List Byte} {s : State}

/-- From FRAME to FOLD: 1 + 64 + 66 steps for a block. -/
theorem LoopAt.run_block {n : Nat} {t : State} (h : LoopAt m s n t) (hbit : s.BITLEN = bitLength s.LEN)
    (hblk : s.NBLK = blockCount s.LEN) (hm : MessageIs s m) (hsched : s.schedule = []) (hn : n < s.NBLK.toNat) :
    ∃ u, Host.Core.run Sys2Proof.core 131 t = .next u ∧ LoopAt m s (n + 1) u := by
  obtain ⟨hframe, hdigest, hframed, hpc⟩ := h
  rw [if_pos hn] at hpc
  have ht : t.BITLEN = bitLength t.LEN ∧ t.NBLK = blockCount t.LEN ∧ t.NBLK = s.NBLK ∧ MessageIs t m ∧ t.schedule = [] := by
    rw [hframe]
    exact ⟨hbit, hblk, rfl, hm, hsched⟩
  obtain ⟨hbit', hblk', hN, hm', hsched'⟩ := ht
  obtain ⟨a, ha, hBLK, hBI⟩ := execFrame_delivers hbit' hblk' (by rw [hframed, hN]; exact hn) hm'
  have haframe := execFrame_frame ha
  have hstep : step t = .next a := (step_of_pc (i := .frame) hsched' rfl rfl hpc).trans ha
  obtain ⟨b, hb, hbframe, hW⟩ := scheduleIsAFunctionOfTheBlock a (by rw [haframe]) (by rw [haframe]; exact hsched')
  obtain ⟨u, hu, huframe, hH, hupc⟩ := roundsAndFoldCompress b a.BLK (by rw [hbframe])
    (by rw [hbframe, haframe]; exact hsched') hW
  have hbBI : b.BI = a.BI := by rw [hbframe]
  have hbN : b.NBLK = s.NBLK := by rw [hbframe, haframe]; exact hN
  have hbH : b.H = t.H := by rw [hbframe, haframe]
  have huBI : u.BI = a.BI := by rw [huframe]; exact hbBI
  refine ⟨u, ?_, ?_, ?_, ?_, ?_⟩
  · rw [run_succ 130 hstep, run_add 64 66 hb, hu]
  · rw [huframe, hbframe, haframe, hframe]
  · rw [hH, hbH, hdigest, hBLK, hframed]
    rfl
  · rw [huBI, hBI, hframed]
  · rw [hupc, hbBI, hBI, hframed, hbN]

/-- The blocks of a run, from its first FRAME. -/
theorem LoopAt.run_blocks {t : State} (h : LoopAt m s 0 t) (hbit : s.BITLEN = bitLength s.LEN)
    (hblk : s.NBLK = blockCount s.LEN) (hm : MessageIs s m) (hsched : s.schedule = []) {n : Nat} (hn : n ≤ s.NBLK.toNat) :
    ∃ u, Host.Core.run Sys2Proof.core (131 * n) t = .next u ∧ LoopAt m s n u := by
  induction n with
  | zero => exact ⟨t, rfl, h⟩
  | succ n ih =>
    obtain ⟨u, hu, hloop⟩ := ih (Nat.le_of_succ_le hn)
    obtain ⟨v, hv, hloop'⟩ := hloop.run_block hbit hblk hm hsched hn
    exact ⟨v, by rw [Nat.mul_succ, run_add (131 * n) 131 hu, hv], hloop'⟩

/-- At the end of a run over `m` that began in `s`: the registers of the run apart, `s` is as it was. -/
structure RunEnd (m : List Byte) (s t : State) : Prop where
  frame : t = { s with
    H := t.H, V := t.V, W := t.W, BLK := t.BLK, BITLEN := t.BITLEN, NBLK := t.NBLK, BI := t.BI, pc := t.pc, DONE := t.DONE,
    freeCount := t.freeCount }
  digest : t.H = digestOf m
  blocks : t.NBLK.toNat = blocksFor m.length
  framed : t.BI = t.NBLK

/-- `s` at the first FRAME of its run: the lengths are computed, no block is framed and the State is IV. -/
def State.atFirstFrame (s : State) : State :=
  { s with BITLEN := bitLength s.LEN, NBLK := blockCount s.LEN, BI := 0#64, H := Config.IV, pc := 0x1100#16 }

/-- FINIT and HINIT. -/
theorem run_to_firstFrame (hpc : s.pc = 0x1000#16) (hsched : s.schedule = []) :
    Host.Core.run Sys2Proof.core 2 s = .next s.atFirstFrame := by
  have hfinit : step s = .next ({ s with BITLEN := bitLength s.LEN, NBLK := blockCount s.LEN, BI := 0#64 }.goto 0x3000#16) :=
    step_of_pc (i := .finit) hsched rfl rfl hpc
  rw [run_succ 1 hfinit, run_succ 0 ((step_of_pc (i := .hinit) (by exact hsched) rfl rfl rfl).trans (exec_hinit _))]
  rfl

/-- FINIT, HINIT and the blocks: EMIT is next. -/
theorem run_to_emit (hpc : s.pc = 0x1000#16) (hsched : s.schedule = []) (hm : MessageIs s m) :
    ∃ t, Host.Core.run Sys2Proof.core (2 + 131 * blocksFor m.length) s = .next t ∧ RunEnd m s t ∧ t.pc = 0x3400#16 := by
  have hN : s.atFirstFrame.NBLK.toNat = blocksFor m.length := by rw [← hm.1]; exact blockCount_eq_blocksFor s.LEN
  have hpos : 0 < s.atFirstFrame.NBLK.toNat := (Nat.succ_pos _).trans_eq (blockCount_toNat s.LEN).symm
  have hhead : LoopAt m s.atFirstFrame 0 s.atFirstFrame := ⟨rfl, rfl, rfl, (if_pos hpos).symm⟩
  obtain ⟨t, ht, hframe, hdigest, hframed, htpc⟩ := hhead.run_blocks rfl rfl hm hsched (Nat.le_refl _)
  rw [hN] at ht
  have htN : t.NBLK = s.atFirstFrame.NBLK := by rw [hframe]
  refine ⟨t, ?_, ⟨?_, ?_, ?_, ?_⟩, ?_⟩
  · rw [run_add 2 _ (run_to_firstFrame hpc hsched), ht]
  · rw [hframe]
    rfl
  · rw [hdigest, hN, digestOf]
  · rw [htN, hN]
  · exact BitVec.eq_of_toNat_eq (hframed.trans (congrArg BitVec.toNat htN).symm)
  · rw [htpc, if_neg (Nat.lt_irrefl _)]

/-- EMIT: the run is over. -/
theorem RunEnd.emit {t : State} (h : RunEnd m s t) (hsched : s.schedule = []) (hpc : t.pc = 0x3400#16) :
    ∃ u, step t = .next u ∧ RunEnd m s u ∧ u.pc = 0x0000#16 ∧ u.DONE = true := by
  obtain ⟨hframe, hdigest, hblocks, hframed⟩ := h
  have htsched : t.schedule = [] := by rw [hframe]; exact hsched
  refine ⟨_, (step_of_pc (i := .emit) htsched rfl rfl hpc).trans (exec_emit t), ⟨?_, hdigest, hblocks, hframed⟩, rfl, rfl⟩
  rw [hframe]
  rfl

/-- 30_encoding.md R90: the 131 * NBLK + 3 operations of a run. -/
theorem run_from_finit (hpc : s.pc = 0x1000#16) (hsched : s.schedule = []) (hm : MessageIs s m) :
    ∃ t, Host.Core.run Sys2Proof.core (131 * blocksFor m.length + 3) s = .next t ∧ RunEnd m s t ∧ t.pc = 0x0000#16 ∧
      t.DONE = true := by
  obtain ⟨t, ht, hend, htpc⟩ := run_to_emit hpc hsched hm
  obtain ⟨u, hu, hend'⟩ := hend.emit hsched htpc
  have hcount : 131 * blocksFor m.length + 3 = 2 + 131 * blocksFor m.length + 1 := by omega
  exact ⟨u, by rw [hcount, run_snoc ht hu], hend'⟩

/-! ## From START -/

/-- An accepted START as the last turn of the host. -/
theorem step_start {d : DWord} (hpc : s.pc = 0x0000#16) (hfault : s.FAULT = false)
    (hsched : s.schedule = [.hostOp 0x0200#16 d]) :
    step s = .next { s with DONE := false, pc := 0x1000#16, response := some ⟨0#4, 0#32⟩, din := d, schedule := [] } := by
  rw [step_of_turn hsched]
  have hhost := hostTransaction_host { s with din := d, schedule := [] } (decode_encode (i := .start) rfl) rfl
  exact hhost.trans (startBeginsARun.2.2.1 _ hfault hpc)

/-- A run from START, whatever the registers held before. -/
theorem run_from_start {d : DWord} (hpc : s.pc = 0x0000#16) (hfault : s.FAULT = false) (hm : MessageIs s m)
    (hsched : s.schedule = [.hostOp 0x0200#16 d]) :
    ∃ t, Host.Core.run Sys2Proof.core (1 + (131 * blocksFor m.length + 3)) s = .next t ∧ t.H = digestOf m ∧
      t.NBLK.toNat = blocksFor m.length ∧ t.BI = t.NBLK ∧ t.pc = 0x0000#16 ∧ t.DONE = true ∧ t.FAULT = false ∧
      t.CAUSE = s.CAUSE ∧ t.LEN = s.LEN ∧ t.msg = s.msg := by
  have hstart := step_start hpc hfault hsched
  obtain ⟨t, ht, ⟨hframe, hdigest, hblocks, hframed⟩, htpc, htdone⟩ := run_from_finit
    (s := { s with DONE := false, pc := 0x1000#16, response := some ⟨0#4, 0#32⟩, din := d, schedule := [] }) rfl rfl hm
  refine ⟨t, ?_, hdigest, hblocks, hframed, htpc, htdone, ?_, ?_, ?_, ?_⟩
  · rw [Nat.add_comm, run_succ _ hstart, ht]
  all_goals rw [hframe]
  exact hfault

end

/-- Settles O56: the run from START, and STATUS from the flags it leaves. -/
theorem runComputesTheDigest : Obligations.RunComputesTheDigest := by
  intro s m d hpc hfault hcause hm hsched
  obtain ⟨t, ht, hdigest, hblocks, hframed, htpc, hdone, htfault, htcause, hlen, hmsg⟩ := run_from_start hpc hfault hm hsched
  exact ⟨t, ht, hdigest, htpc, hdone, htfault,
    State.status_of_done (htcause.trans hcause) htfault hdone (State.busy_of_halted htpc), hblocks, hframed, hlen, hmsg⟩

/-! ## The message of a state -/

/-- The bytes of MSG below LEN. -/
def messageOf (s : State) : List Byte := List.ofFn fun p : Fin s.LEN.toNat => (s.msg.read p.val).getD 0x00#8

theorem MessageDefined.messageIs {s : State} (h : MessageDefined s) : MessageIs s (messageOf s) := by
  refine ⟨by simp [messageOf], fun p hp => ?_⟩
  have hlt : p < s.LEN.toNat := by simpa [messageOf] using hp
  obtain ⟨b, hb⟩ := h p hlt
  simp [messageOf, hlt, hb]

/-- Settles O58: both runs leave the digest of the one message that both states hold. -/
theorem digestDependsOnTheMessageAlone : Obligations.DigestDependsOnTheMessageAlone := by
  intro s t d e hspc htpc hsfault htfault hlen hread hdefined hssched htsched
  have hs : MessageIs s (messageOf s) := hdefined.messageIs
  have ht : MessageIs t (messageOf s) :=
    ⟨hlen ▸ hs.1, fun p hp => (hread p (hs.1.symm ▸ hp)).symm.trans (hs.2 p hp)⟩
  have hN : (blockCount s.LEN).toNat = blocksFor (messageOf s).length := by rw [blockCount_eq_blocksFor, hs.1]
  obtain ⟨s', hs', hsH, -, -, -, hsdone, -⟩ := run_from_start hspc hsfault hs hssched
  obtain ⟨t', ht', htH, -, -, -, htdone, -⟩ := run_from_start htpc htfault ht htsched
  rw [← hlen, hN]
  exact ⟨s', t', hs', ht', hsdone, htdone, hsH.trans htH.symm⟩

end Sys2Proof.Machine
end

section
/-! PROOF (O57, O59). Runs that are not the sequencer's from FINIT on: host transactions between its steps
(70_reset_and_hazards.md R233), and a start from any position of a run (R234). -/

namespace Sys2Proof.Machine

/-! ## The sequencer does not look at the ports -/

/-- `s` with other ports and other turns to come. -/
def State.withPorts (s : State) (din : DWord) (resp : Option Response) (sched : List Turn) : State :=
  { s with din := din, response := resp, schedule := sched }

section

variable (d : DWord) (r : Option Response) (l : List Turn)

theorem exec_sequencer_withPorts {i : Instr} {s t : State} (hwf : i.wf = true) (hi : i.issuer = .sequencer)
    (h : exec i s = .next t) : exec i (s.withPorts d r l) = .next (t.withPorts d r l) := by
  cases i with
  | frame =>
    have hfill : frameFill (s.withPorts d r l) s.BI.toNat 64 s.BLK = frameFill s s.BI.toNat 64 s.BLK :=
      frameFill_congr s.BLK rfl rfl rfl rfl fun _ _ _ => rfl
    cases hf : frameFill s s.BI.toNat 64 s.BLK with
    | error p => cases (exec_frame_of_error hf).symm.trans h
    | ok blk =>
      cases (exec_frame_of_ok hf).symm.trans h
      exact exec_frame_of_ok (hfill.trans hf)
  | wexp k =>
    have hk : 16 ≤ k.val := of_decide_eq_true hwf
    cases (exec_wexp hk s).symm.trans h
    exact exec_wexp hk _
  | finit | wload k | hinit | seed | round k | fold | emit =>
    cases h
    rfl
  | _ => cases hi

theorem sequencerStep_withPorts {s t : State} (h : sequencerStep s = .next t) :
    sequencerStep (s.withPorts d r l) = .next (t.withPorts d r l) := by
  rcases sequencerStep_cases s with ⟨hpc, hs⟩ | ⟨hpc, hillegal, hs⟩ | ⟨-, i, hd, hi, hs⟩
  · cases hs.symm.trans h
    exact sequencerStep_of_halted hpc
  · cases hs.symm.trans h
    refine sequencerStep_of_not_mem hpc fun hmem => ?_
    obtain ⟨i, hd, hi⟩ := (exists_sequencer_iff_mem_sequencerWords s.pc).mpr hmem
    cases hi.symm.trans (hillegal i hd)
  · rw [sequencerStep_of_decode (s := s.withPorts d r l) hd hi]
    exact exec_sequencer_withPorts d r l ((decode_eq_ok_iff s.pc i).mp hd).1 hi (hs.symm.trans h)

end

/-! ## Host transactions between the steps -/

/-- A halted core with no turn to come stays as it is. -/
theorem run_of_halted {s : State} (hpc : s.pc = 0x0000#16) (hsched : s.schedule = []) (n : Nat) :
    Host.Core.run Sys2Proof.core n s = .next s := by
  induction n with
  | zero => rfl
  | succ n ih => rw [run_succ n ((step_of_empty hsched).trans (sequencerStep_of_halted hpc)), ih]

/-- A run that is not over yet has not been halted. -/
theorem pc_ne_zero_of_run {s t : State} {n : Nat} (hsched : s.schedule = []) (h : Host.Core.run Sys2Proof.core n s = .next t)
    (hpc : t.pc ≠ 0x0000#16) : s.pc ≠ 0x0000#16 := by
  intro h0
  cases (run_of_halted h0 hsched n).symm.trans h
  exact hpc h0

/-- A run that completes begins with a step that does. -/
theorem run_succ_inv {s u : State} {n : Nat} (h : Host.Core.run Sys2Proof.core (n + 1) s = .next u) :
    ∃ t, step s = .next t ∧ Host.Core.run Sys2Proof.core n t = .next u := by
  cases hs : step s with
  | next t => exact ⟨t, rfl, (run_succ n hs).symm.trans h⟩
  | fault e =>
    simp only [Host.Core.run] at h
    rw [show Sys2Proof.core.step s = .fault e from hs] at h
    cases h
  | refused e =>
    simp only [Host.Core.run] at h
    rw [show Sys2Proof.core.step s = .refused e from hs] at h
    cases h

/-- The first of the turns to come. -/
theorem step_withPorts_cons (x : State) (d : DWord) (r : Option Response) (turn : Turn) (rest : List Turn) :
    step (x.withPorts d r (turn :: rest)) = takeTurn turn (x.withPorts d r rest) := step_of_turn rfl

/-- A host transaction between two steps of a run, seen from the sequencer: the ports change, and nothing else. -/
theorem step_hostOp_withPorts {x : State} {d d' : DWord} {r : Option Response} {opw : OpWord} {rest : List Turn}
    (hpc : x.pc ≠ 0x0000#16) :
    ∃ r', step (x.withPorts d r (.hostOp opw d' :: rest)) = .next (x.withPorts d' r' rest) := by
  obtain ⟨r', hr⟩ := hostCannotDisturbARun opw (x.withPorts d' r rest) hpc
  exact ⟨some r', (step_withPorts_cons ..).trans hr⟩

/-- The sequencer alone, from `x`, takes `n` steps without coming to the end and one more to `v`; then any schedule of host
transactions and `n + 1` turns of the sequencer, the last of them at its end, comes to `v` too, the ports apart. -/
theorem run_interleaved {n : Nat} {x u v : State} (hsched : x.schedule = [])
    (hu : Host.Core.run Sys2Proof.core n x = .next u) (hpc : u.pc ≠ 0x0000#16) (hv : step u = .next v)
    {turns : List Turn} (hharmless : ∀ turn ∈ turns, turn.harmless = true) (hcount : turns.count .sequencer = n + 1)
    (hlast : turns.getLast? = some .sequencer) (d : DWord) (r : Option Response) :
    ∃ d' r', Host.Core.run Sys2Proof.core turns.length (x.withPorts d r turns) = .next (v.withPorts d' r' []) := by
  induction turns generalizing n x d r with
  | nil => cases hlast
  | cons turn rest ih =>
    have hrest : ∀ turn ∈ rest, turn.harmless = true := fun t ht => hharmless t (List.mem_cons_of_mem _ ht)
    have hlast' : rest ≠ [] → rest.getLast? = some .sequencer := fun hne => by
      rwa [List.getLast?_cons_of_ne_nil hne] at hlast
    cases turn with
    | hostOp opw d' =>
      have hcount' : rest.count .sequencer = n + 1 := by rwa [List.count_cons_of_ne (by simp)] at hcount
      have hne : rest ≠ [] := by
        rintro rfl
        cases hcount'
      obtain ⟨r', hstep⟩ := step_hostOp_withPorts (d := d) (d' := d') (r := r) (opw := opw) (rest := rest)
        (pc_ne_zero_of_run hsched hu hpc)
      rw [List.length_cons, run_succ _ hstep]
      exact ih hsched hu hrest hcount' (hlast' hne) d' r'
    | sequencer =>
      have hcount' : rest.count .sequencer = n := by simpa using hcount
      cases n with
      | zero =>
        have hnil : rest = [] := by
          by_contra hne
          have hmem := List.mem_of_getLast? (hlast' hne)
          exact List.count_eq_zero.mp hcount' hmem
        subst hnil
        cases hu
        refine ⟨d, r, run_succ 0 ((step_withPorts_cons ..).trans ?_)⟩
        exact sequencerStep_withPorts d r [] ((step_of_empty hsched).symm.trans hv)
      | succ n =>
        obtain ⟨y, hy, hyu⟩ := run_succ_inv hu
        have hseq := (step_of_empty hsched).symm.trans hy
        have hne : rest ≠ [] := by
          rintro rfl
          cases hcount'
        have hstep : step (x.withPorts d r (.sequencer :: rest)) = .next (y.withPorts d r rest) :=
          (step_withPorts_cons ..).trans (sequencerStep_withPorts d r rest hseq)
        rw [List.length_cons, run_succ _ hstep]
        exact ih ((sequencerStep_keeps hseq).2.trans hsched) hyu hrest hcount' (hlast' hne) d r
    | reset => cases hharmless _ List.mem_cons_self
    | writeMsg p b => cases hharmless _ List.mem_cons_self

/-- Settles O57: the run of the sequencer alone to EMIT and over it, interleaved. -/
theorem runUnderAnyInterleaving : Obligations.RunUnderAnyInterleaving := by
  intro s m hpc hfault hm hharmless hcount hlast
  obtain ⟨u, hu, huend, hupc⟩ := run_to_emit (s := s.withPorts s.din s.response []) hpc rfl hm
  obtain ⟨v, hv, hvend, hvpc, hvdone⟩ := huend.emit rfl hupc
  have hcount' : s.schedule.count .sequencer = 2 + 131 * blocksFor m.length + 1 := by omega
  obtain ⟨d, r, hrun⟩ := run_interleaved rfl hu (by rw [hupc]; decide) hv hharmless hcount' hlast s.din s.response
  refine ⟨_, hrun, hvend.digest, hvpc, hvdone, ?_, rfl⟩
  change v.FAULT = false
  rw [hvend.frame]
  exact hfault

/-! ## From any position of a run -/

/-- How many steps are left of a run of `N` blocks with `BI` of them framed. -/
def stepsLeft (N BI : Nat) : Instr → Nat
  | .finit => 131 * N + 3
  | .hinit => 131 * N + 2
  | .frame => 131 * (N - BI) + 1
  | .wload k => 131 * (N - BI) + 131 - k.val
  | .wexp k => 131 * (N - BI) + 131 - k.val
  | .seed => 131 * (N - BI) + 67
  | .round k => 131 * (N - BI) + 66 - k.val
  | .fold => 131 * (N - BI) + 2
  | .emit => 1
  | _ => 0

theorem stepsLeft_le {N BI : Nat} {i : Instr} (h : i ≠ .finit → framedAt BI N i) : stepsLeft N BI i ≤ 131 * N + 3 := by
  cases i with
  | frame =>
    have hlt : BI < N := h nofun
    simp only [stepsLeft]
    omega
  | wload k | wexp k | round k | seed | fold =>
    obtain ⟨h1, hle⟩ := h nofun
    simp only [stepsLeft]
    omega
  | _ =>
    simp only [stepsLeft]
    omega

/-- The successor of a position that leaves the block counter alone is one step nearer to the end. -/
theorem stepsLeft_successor {N BI : Nat} {i j : Instr} (hfinit : i ≠ .finit) (hframe : i ≠ .frame) (h : framedAt BI N i)
    (hj : i.successor (decide (BI < N)) = some j) : stepsLeft N BI i = stepsLeft N BI j + 1 := by
  cases i with
  | finit => exact absurd rfl hfinit
  | frame => exact absurd rfl hframe
  | hinit =>
    cases hj
    have h0 : BI = 0 := h
    simp only [stepsLeft, h0, Nat.sub_zero]
  | wload k | wexp k | round k =>
    simp only [Instr.successor] at hj
    split at hj <;>
    · cases hj
      simp only [stepsLeft]
      omega
  | seed =>
    cases hj
    simp [stepsLeft]
  | fold =>
    obtain ⟨-, hle⟩ := h
    by_cases hmore : BI < N
    · simp only [Instr.successor, hmore, decide_true, if_true] at hj
      cases hj
      rfl
    · simp only [Instr.successor, hmore, decide_false, Bool.false_eq_true, if_false] at hj
      cases hj
      simp only [stepsLeft]
      omega
  | _ => cases hj

/-- How many steps are left from a state of a run with `i` in `pc`. -/
def State.stepsLeft (s : State) (i : Instr) : Nat := Machine.stepsLeft (blockCount s.LEN).toNat s.BI.toNat i

theorem Running.stepsLeft_step {i j : Instr} {s t : State} (h : Running i s) (ht : exec i s = .next t)
    (hj : i.successor (decide (s.BI.toNat < s.NBLK.toNat)) = some j) : s.stepsLeft i = t.stepsLeft j + 1 := by
  rw [State.stepsLeft, State.stepsLeft, exec_keeps_LEN h.wf h.issuer ht]
  by_cases hfinit : i = .finit
  · subst hfinit
    cases hj
    rfl
  obtain ⟨-, hN⟩ := h.lengths hfinit
  have hframed := h.framed hfinit
  rw [← hN]
  by_cases hframe : i = .frame
  · subst hframe
    cases hj
    have hmore : s.BI.toNat < s.NBLK.toNat := hframed
    rw [execFrame_BI ht hmore]
    simp only [Machine.stepsLeft, Fin.val_zero]
    omega
  · rw [exec_keeps_BI h.wf hfinit hframe ht]
    exact stepsLeft_successor hfinit hframe hframed hj

/-- With the message defined every operation completes. -/
theorem exec_completes_of_defined (i : Instr) {s : State} (h : MessageDefined s) : ∃ t, exec i s = .next t := by
  by_cases hi : i = .frame
  · subst hi
    exact execFrame_completes fun _ _ hlt => h _ hlt
  · exact exec_completes i s hi

/-- The sequencer alone ends a run in as many steps as are left. -/
theorem Running.run_to_end {i : Instr} {s : State} (h : Running i s) (hsched : s.schedule = []) (hm : MessageDefined s) :
    ∃ t, Host.Core.run Sys2Proof.core (s.stepsLeft i) s = .next t ∧ t.pc = 0x0000#16 ∧ t.DONE = true ∧ t.FAULT = false := by
  obtain ⟨t, ht⟩ := exec_completes_of_defined i hm
  have hstep := (step_of_pc hsched h.wf h.issuer h.pc).trans ht
  by_cases hi : i = .emit
  · subst hi
    cases ht
    exact ⟨_, run_succ 0 hstep, rfl, rfl, h.fault⟩
  · obtain ⟨j, hj, hrun⟩ := h.step hi ht
    obtain ⟨hmsg, htsched, -⟩ := exec_keeps ht
    have hm' : MessageDefined t := by
      rw [MessageDefined, exec_keeps_LEN h.wf h.issuer ht, hmsg]
      exact hm
    have hleft := h.stepsLeft_step ht hj
    obtain ⟨u, hu, hend⟩ := hrun.run_to_end (htsched.trans hsched) hm'
    exact ⟨u, by rw [hleft, run_succ _ hstep, hu], hend⟩
termination_by s.stepsLeft i

/-- Settles O59: the steps left of a run are at most those of a whole one. -/
theorem runEndsFromAnywhere : Obligations.RunEndsFromAnywhere := by
  intro s hinv hpc hsched hm
  obtain ⟨i, hrun⟩ := hinv.running_of_ne_zero hpc
  obtain ⟨t, ht, hend⟩ := hrun.run_to_end hsched hm
  refine ⟨_, t, stepsLeft_le fun hfinit => ?_, ht, hend⟩
  rw [← (hrun.lengths hfinit).2]
  exact hrun.framed hfinit

end Sys2Proof.Machine
end
